-- ==== Sys2Proof/Word.lean ====
section
/-! DEFINITION. The word, the byte and the register number (00_scope.md R5, R8; 10_state.md R10). -/

namespace Sys2Proof

/-- A register value, the pc, an address, an instruction word or a decoded immediate: 32 bits (R8). -/
abbrev Word := BitVec 32

/-- The addressable unit of memory: 8 bits (R30). -/
abbrev Byte := BitVec 8

/-- A register number, 0 to 31: every encodable number names a register (R10). -/
abbrev Reg := Fin 32

end Sys2Proof
end

