-- ==== Sys2Proof/Machine/Bits.lean ====
section
/-! DEFINITION. Bit-field, sign-extension and byte-order helpers (00_scope.md R7, R8; 20_memory.md R33). -/

namespace Sys2Proof

/-- `sext_n(v)` of R8: bits 31 to n are copies of bit n − 1. -/
def sext {n : Nat} (v : BitVec n) : Word := v.signExtend 32

/-- `zext_n(v)` of R8: bits 31 to n are zero. -/
def zext {n : Nat} (v : BitVec n) : Word := v.setWidth 32

/-- `v[8i + 7 : 8i]`, the byte of `v` that lies `i` addresses above its lowest (R33, R35). -/
def byteOf (v : Word) (i : Nat) : Byte := v.extractLsb' (8 * i) 8

/-- The low `n` bytes of `v`, least significant first: the order of rising addresses (R33). -/
def bytesOf (v : Word) (n : Nat) : List Byte := (List.range n).map (byteOf v)

/-- The value of a list of at most four bytes, least significant first: `{b[n−1], ..., b[1], b[0]}` (R34). -/
def wordOf : List Byte → Word
  | [] => 0#32
  | b :: bs => wordOf bs <<< 8 ||| zext b

/-- The register number in a 5-bit field (R56). -/
def regOf (v : BitVec 5) : Reg := ⟨v.toNat, v.isLt⟩

/-- The 5-bit field that names a register (R65). -/
def regBits (r : Reg) : BitVec 5 := BitVec.ofNat 5 r.val

end Sys2Proof
end

