-- ==== Sys2Proof/Syntax.lean ====
section
/-! DEFINITION. The 38 instructions of 30_encoding.md R70, one constructor per row of spec/opcode_table.json.

An immediate is the 32-bit value of the Decoded Instruction (R52): sign-extended for I, S, B and J, already in bits
[31:12] for U. A shift amount is the 5-bit field of R131. In loads and JALR `rs1` is the base; in stores `rs1` is the
base and `rs2` the data. -/

namespace Sys2Proof

inductive Instr where
  -- R class, opcode 0x33
  | add (rd rs1 rs2 : Reg)
  | sub (rd rs1 rs2 : Reg)
  | sll (rd rs1 rs2 : Reg)
  | slt (rd rs1 rs2 : Reg)
  | sltu (rd rs1 rs2 : Reg)
  | xor (rd rs1 rs2 : Reg)
  | srl (rd rs1 rs2 : Reg)
  | sra (rd rs1 rs2 : Reg)
  | or (rd rs1 rs2 : Reg)
  | and (rd rs1 rs2 : Reg)
  -- I class, opcode 0x13
  | addi (rd rs1 : Reg) (imm : Word)
  | slli (rd rs1 : Reg) (shamt : BitVec 5)
  | slti (rd rs1 : Reg) (imm : Word)
  | sltiu (rd rs1 : Reg) (imm : Word)
  | xori (rd rs1 : Reg) (imm : Word)
  | srli (rd rs1 : Reg) (shamt : BitVec 5)
  | srai (rd rs1 : Reg) (shamt : BitVec 5)
  | ori (rd rs1 : Reg) (imm : Word)
  | andi (rd rs1 : Reg) (imm : Word)
  -- I class, opcode 0x03
  | lb (rd rs1 : Reg) (imm : Word)
  | lh (rd rs1 : Reg) (imm : Word)
  | lw (rd rs1 : Reg) (imm : Word)
  | lbu (rd rs1 : Reg) (imm : Word)
  | lhu (rd rs1 : Reg) (imm : Word)
  -- I class, opcode 0x67
  | jalr (rd rs1 : Reg) (imm : Word)
  -- S class, opcode 0x23
  | sb (rs1 rs2 : Reg) (imm : Word)
  | sh (rs1 rs2 : Reg) (imm : Word)
  | sw (rs1 rs2 : Reg) (imm : Word)
  -- U class, opcodes 0x37 and 0x17
  | lui (rd : Reg) (imm : Word)
  | auipc (rd : Reg) (imm : Word)
  -- B class, opcode 0x63
  | beq (rs1 rs2 : Reg) (imm : Word)
  | bne (rs1 rs2 : Reg) (imm : Word)
  | blt (rs1 rs2 : Reg) (imm : Word)
  | bge (rs1 rs2 : Reg) (imm : Word)
  | bltu (rs1 rs2 : Reg) (imm : Word)
  | bgeu (rs1 rs2 : Reg) (imm : Word)
  -- J class, opcode 0x6F
  | jal (rd : Reg) (imm : Word)
  -- I class, opcode 0x73
  | ecall
  deriving DecidableEq, Repr

/-- The row's mnemonic in R70. -/
def Instr.mnemonic : Instr → String
  | .add .. => "ADD"
  | .sub .. => "SUB"
  | .sll .. => "SLL"
  | .slt .. => "SLT"
  | .sltu .. => "SLTU"
  | .xor .. => "XOR"
  | .srl .. => "SRL"
  | .sra .. => "SRA"
  | .or .. => "OR"
  | .and .. => "AND"
  | .addi .. => "ADDI"
  | .slli .. => "SLLI"
  | .slti .. => "SLTI"
  | .sltiu .. => "SLTIU"
  | .xori .. => "XORI"
  | .srli .. => "SRLI"
  | .srai .. => "SRAI"
  | .ori .. => "ORI"
  | .andi .. => "ANDI"
  | .lb .. => "LB"
  | .lh .. => "LH"
  | .lw .. => "LW"
  | .lbu .. => "LBU"
  | .lhu .. => "LHU"
  | .jalr .. => "JALR"
  | .sb .. => "SB"
  | .sh .. => "SH"
  | .sw .. => "SW"
  | .lui .. => "LUI"
  | .auipc .. => "AUIPC"
  | .beq .. => "BEQ"
  | .bne .. => "BNE"
  | .blt .. => "BLT"
  | .bge .. => "BGE"
  | .bltu .. => "BLTU"
  | .bgeu .. => "BGEU"
  | .jal .. => "JAL"
  | .ecall => "ECALL"

end Sys2Proof
end

