-- ==== Sys2Proof/WellFormed.lean ====
section
/-! DEFINITION. Which terms of `Instr` are instructions: the immediate is in its format's range (30_encoding.md R57 to
R61, R65: "an assembler must first check that `i` is in the format's range and, for B and J, even"). Register numbers
and shift amounts are in range by their types. -/

namespace Sys2Proof

/-- The signed reading of `imm` lies in the range `lo` to `hi`, both ends included. -/
def immWithin (lo hi : Int) (imm : Word) : Bool :=
  decide (lo ≤ imm.toInt) && decide (imm.toInt ≤ hi)

/-- I and S immediates: −2048 to 2047 (R57, R58). -/
def fitsImm12 (imm : Word) : Bool := immWithin (-2048) 2047 imm

/-- B immediates: even, −4096 to 4094 (R59). -/
def fitsImmB (imm : Word) : Bool := immWithin (-4096) 4094 imm && !imm.getLsbD 0

/-- U immediates: the low 12 bits are zero (R60). -/
def fitsImmU (imm : Word) : Bool := imm.setWidth 12 == 0#12

/-- J immediates: even, −1048576 to 1048574 (R61). -/
def fitsImmJ (imm : Word) : Bool := immWithin (-1048576) 1048574 imm && !imm.getLsbD 0

/-- The check of every instruction term. -/
def Instr.wellFormed : Instr → Bool
  | .add .. => true
  | .sub .. => true
  | .sll .. => true
  | .slt .. => true
  | .sltu .. => true
  | .xor .. => true
  | .srl .. => true
  | .sra .. => true
  | .or .. => true
  | .and .. => true
  | .addi _ _ imm => fitsImm12 imm
  | .slli .. => true
  | .slti _ _ imm => fitsImm12 imm
  | .sltiu _ _ imm => fitsImm12 imm
  | .xori _ _ imm => fitsImm12 imm
  | .srli .. => true
  | .srai .. => true
  | .ori _ _ imm => fitsImm12 imm
  | .andi _ _ imm => fitsImm12 imm
  | .lb _ _ imm => fitsImm12 imm
  | .lh _ _ imm => fitsImm12 imm
  | .lw _ _ imm => fitsImm12 imm
  | .lbu _ _ imm => fitsImm12 imm
  | .lhu _ _ imm => fitsImm12 imm
  | .jalr _ _ imm => fitsImm12 imm
  | .sb _ _ imm => fitsImm12 imm
  | .sh _ _ imm => fitsImm12 imm
  | .sw _ _ imm => fitsImm12 imm
  | .lui _ imm => fitsImmU imm
  | .auipc _ imm => fitsImmU imm
  | .beq _ _ imm => fitsImmB imm
  | .bne _ _ imm => fitsImmB imm
  | .blt _ _ imm => fitsImmB imm
  | .bge _ _ imm => fitsImmB imm
  | .bltu _ _ imm => fitsImmB imm
  | .bgeu _ _ imm => fitsImmB imm
  | .jal _ imm => fitsImmJ imm
  | .ecall => true

end Sys2Proof
end

