-- ==== Sys2Proof/Decode.lean ====
section
/-! DEFINITION. The Decoder (30_encoding.md R50 to R66), the Execute Engine's selection (40_step_cycle.md R95), and the
encoder (R65). `decode` is the two in sequence: the Decoder never rejects a word (R66); `select` rejects, by name, every
word that matches no row of R70 (R72). -/

namespace Sys2Proof

/-- The class tag of a Decoded Instruction (R52, R54). -/
inductive Class where
  | R | I | S | U | B | J | Unknown
  deriving DecidableEq, Repr

/-- The Decoded Instruction: "a tagged variant over six cases plus an Unknown case" (R52). -/
inductive Decoded where
  | r (opcode : BitVec 7) (rd rs1 rs2 : Reg) (funct3 : BitVec 3) (funct7 : BitVec 7)
  | i (opcode : BitVec 7) (rd rs1 : Reg) (funct3 : BitVec 3) (imm : Word)
  | s (opcode : BitVec 7) (rs1 rs2 : Reg) (funct3 : BitVec 3) (imm : Word)
  | u (opcode : BitVec 7) (rd : Reg) (imm : Word)
  | b (opcode : BitVec 7) (rs1 rs2 : Reg) (funct3 : BitVec 3) (imm : Word)
  | j (opcode : BitVec 7) (rd : Reg) (imm : Word)
  | unknown (opcode : BitVec 7)
  deriving DecidableEq, Repr

/-- The class tag every case carries (R52). -/
def Decoded.tag : Decoded → Class
  | .r .. => .R
  | .i .. => .I
  | .s .. => .S
  | .u .. => .U
  | .b .. => .B
  | .j .. => .J
  | .unknown .. => .Unknown

/-- Why a word or a byte sequence is no instruction. Every word so rejected ends in InvalidEncoding (R72); the names
say which check failed. -/
inductive Reject where
  /-- Fewer than four bytes were given (R75: an instruction is 32 bits). -/
  | truncated
  /-- The Unknown class (R208). -/
  | unknownClass (opcode : BitVec 7)
  /-- A known opcode with a funct3 that names no instruction (R151, R166, R171, R186). -/
  | funct3 (opcode : BitVec 7) (funct3 : BitVec 3)
  /-- R class with an unsupported funct7 (R111). -/
  | funct7 (funct3 : BitVec 3) (funct7 : BitVec 7)
  /-- A shift-immediate with unsupported imm[11:5] (R131). -/
  | shiftImm (funct3 : BitVec 3) (up : BitVec 7)
  /-- A SYSTEM word other than ECALL (R207). -/
  | system
  deriving DecidableEq, Repr

/-! ### The Decoder: classification and fields -/

/-- `opcode = bits[6:0]` (R53). -/
def opcodeOf (w : Word) : BitVec 7 := w.extractLsb' 0 7

/-- `rd = bits[11:7]` (R56). -/
def rdOf (w : Word) : Reg := regOf (w.extractLsb' 7 5)

/-- `funct3 = bits[14:12]` (R56). -/
def funct3Of (w : Word) : BitVec 3 := w.extractLsb' 12 3

/-- `rs1 = bits[19:15]` (R56). -/
def rs1Of (w : Word) : Reg := regOf (w.extractLsb' 15 5)

/-- `rs2 = bits[24:20]` (R56). -/
def rs2Of (w : Word) : Reg := regOf (w.extractLsb' 20 5)

/-- `funct7 = bits[31:25]` (R56). -/
def funct7Of (w : Word) : BitVec 7 := w.extractLsb' 25 7

/-- The fixed opcode to class table (R54); anything else is Unknown. -/
def classOf (opcode : BitVec 7) : Class :=
  if opcode = 0x33#7 then .R
  else if opcode = 0x03#7 ∨ opcode = 0x13#7 ∨ opcode = 0x67#7 ∨ opcode = 0x73#7 then .I
  else if opcode = 0x23#7 then .S
  else if opcode = 0x17#7 ∨ opcode = 0x37#7 then .U
  else if opcode = 0x63#7 then .B
  else if opcode = 0x6F#7 then .J
  else .Unknown

/-- I-immediate: `sext_12(w[31:20])` (R57). -/
def immIOf (w : Word) : Word := sext (w.extractLsb' 20 12)

/-- S-immediate: `sext_12({w[31:25], w[11:7]})` (R58). -/
def immSOf (w : Word) : Word := sext (w.extractLsb' 25 7 ++ w.extractLsb' 7 5)

/-- B-immediate: `sext_13({w[31], w[7], w[30:25], w[11:8], 0b0})` (R59). -/
def immBOf (w : Word) : Word :=
  sext (w.extractLsb' 31 1 ++ w.extractLsb' 7 1 ++ w.extractLsb' 25 6 ++ w.extractLsb' 8 4 ++ 0#1)

/-- U-immediate: `{w[31:12], 0x000}` (R60). -/
def immUOf (w : Word) : Word := w.extractLsb' 12 20 ++ 0#12

/-- J-immediate: `sext_21({w[31], w[19:12], w[20], w[30:21], 0b0})` (R61). -/
def immJOf (w : Word) : Word :=
  sext (w.extractLsb' 31 1 ++ w.extractLsb' 12 8 ++ w.extractLsb' 20 1 ++ w.extractLsb' 21 10 ++ 0#1)

/-- The Decoder: "total and pure (no failure ...)" (R50), carrying exactly the fields of the class (R52). -/
def decodeClass (w : Word) : Decoded :=
  match classOf (opcodeOf w) with
  | .R => .r (opcodeOf w) (rdOf w) (rs1Of w) (rs2Of w) (funct3Of w) (funct7Of w)
  | .I => .i (opcodeOf w) (rdOf w) (rs1Of w) (funct3Of w) (immIOf w)
  | .S => .s (opcodeOf w) (rs1Of w) (rs2Of w) (funct3Of w) (immSOf w)
  | .U => .u (opcodeOf w) (rdOf w) (immUOf w)
  | .B => .b (opcodeOf w) (rs1Of w) (rs2Of w) (funct3Of w) (immBOf w)
  | .J => .j (opcodeOf w) (rdOf w) (immJOf w)
  | .Unknown => .unknown (opcodeOf w)

/-! ### The Execute Engine's selection -/

/-- R class: funct3 and funct7 (R111). -/
def selectR (rd rs1 rs2 : Reg) (f3 : BitVec 3) (f7 : BitVec 7) : Except Reject Instr :=
  if f7 = 0x00#7 then
    match f3 with
    | 0b000#3 => .ok (.add rd rs1 rs2)
    | 0b001#3 => .ok (.sll rd rs1 rs2)
    | 0b010#3 => .ok (.slt rd rs1 rs2)
    | 0b011#3 => .ok (.sltu rd rs1 rs2)
    | 0b100#3 => .ok (.xor rd rs1 rs2)
    | 0b101#3 => .ok (.srl rd rs1 rs2)
    | 0b110#3 => .ok (.or rd rs1 rs2)
    | 0b111#3 => .ok (.and rd rs1 rs2)
  else if f7 = 0x20#7 then
    if f3 = 0b000#3 then .ok (.sub rd rs1 rs2)
    else if f3 = 0b101#3 then .ok (.sra rd rs1 rs2)
    else .error (.funct7 f3 f7)
  else .error (.funct7 f3 f7)

/-- ALU with immediate, opcode 0x13: funct3, and imm[11:5] for the shifts (R131). -/
def selectImm (rd rs1 : Reg) (f3 : BitVec 3) (imm : Word) : Except Reject Instr :=
  let up : BitVec 7 := imm.extractLsb' 5 7
  let shamt : BitVec 5 := imm.extractLsb' 0 5
  match f3 with
  | 0b000#3 => .ok (.addi rd rs1 imm)
  | 0b001#3 => if up = 0x00#7 then .ok (.slli rd rs1 shamt) else .error (.shiftImm f3 up)
  | 0b010#3 => .ok (.slti rd rs1 imm)
  | 0b011#3 => .ok (.sltiu rd rs1 imm)
  | 0b100#3 => .ok (.xori rd rs1 imm)
  | 0b101#3 =>
    if up = 0x00#7 then .ok (.srli rd rs1 shamt)
    else if up = 0x20#7 then .ok (.srai rd rs1 shamt)
    else .error (.shiftImm f3 up)
  | 0b110#3 => .ok (.ori rd rs1 imm)
  | 0b111#3 => .ok (.andi rd rs1 imm)

/-- Loads, opcode 0x03 (R151). -/
def selectLoad (rd rs1 : Reg) (f3 : BitVec 3) (imm : Word) : Except Reject Instr :=
  if f3 = 0b000#3 then .ok (.lb rd rs1 imm)
  else if f3 = 0b001#3 then .ok (.lh rd rs1 imm)
  else if f3 = 0b010#3 then .ok (.lw rd rs1 imm)
  else if f3 = 0b100#3 then .ok (.lbu rd rs1 imm)
  else if f3 = 0b101#3 then .ok (.lhu rd rs1 imm)
  else .error (.funct3 0x03#7 f3)

/-- JALR, opcode 0x67 (R166). -/
def selectJalr (rd rs1 : Reg) (f3 : BitVec 3) (imm : Word) : Except Reject Instr :=
  if f3 = 0b000#3 then .ok (.jalr rd rs1 imm) else .error (.funct3 0x67#7 f3)

/-- SYSTEM, opcode 0x73: only rd = rs1 = 0, funct3 = 000, imm = 0 is ECALL (R206, R207). -/
def selectSystem (rd rs1 : Reg) (f3 : BitVec 3) (imm : Word) : Except Reject Instr :=
  if rd = 0 ∧ rs1 = 0 ∧ f3 = 0b000#3 ∧ imm = 0#32 then .ok .ecall else .error .system

/-- Stores, opcode 0x23 (R171). -/
def selectStore (rs1 rs2 : Reg) (f3 : BitVec 3) (imm : Word) : Except Reject Instr :=
  if f3 = 0b000#3 then .ok (.sb rs1 rs2 imm)
  else if f3 = 0b001#3 then .ok (.sh rs1 rs2 imm)
  else if f3 = 0b010#3 then .ok (.sw rs1 rs2 imm)
  else .error (.funct3 0x23#7 f3)

/-- Branches, opcode 0x63 (R186). -/
def selectBranch (rs1 rs2 : Reg) (f3 : BitVec 3) (imm : Word) : Except Reject Instr :=
  if f3 = 0b000#3 then .ok (.beq rs1 rs2 imm)
  else if f3 = 0b001#3 then .ok (.bne rs1 rs2 imm)
  else if f3 = 0b100#3 then .ok (.blt rs1 rs2 imm)
  else if f3 = 0b101#3 then .ok (.bge rs1 rs2 imm)
  else if f3 = 0b110#3 then .ok (.bltu rs1 rs2 imm)
  else if f3 = 0b111#3 then .ok (.bgeu rs1 rs2 imm)
  else .error (.funct3 0x63#7 f3)

/-- The dispatch of R95: by class, then by opcode inside the I and U classes, then by the selectors. -/
def select : Decoded → Except Reject Instr
  | .r _ rd rs1 rs2 f3 f7 => selectR rd rs1 rs2 f3 f7
  | .i op rd rs1 f3 imm =>
    if op = 0x13#7 then selectImm rd rs1 f3 imm
    else if op = 0x03#7 then selectLoad rd rs1 f3 imm
    else if op = 0x67#7 then selectJalr rd rs1 f3 imm
    else if op = 0x73#7 then selectSystem rd rs1 f3 imm
    else .error (.unknownClass op)
  | .s _ rs1 rs2 f3 imm => selectStore rs1 rs2 f3 imm
  | .u op rd imm =>
    if op = 0x37#7 then .ok (.lui rd imm)
    else if op = 0x17#7 then .ok (.auipc rd imm)
    else .error (.unknownClass op)
  | .b _ rs1 rs2 f3 imm => selectBranch rs1 rs2 f3 imm
  | .j _ rd imm => .ok (.jal rd imm)
  | .unknown op => .error (.unknownClass op)

/-- From a 32-bit word to the instruction it is, or the reason it is none. -/
def decode (w : Word) : Except Reject Instr := select (decodeClass w)

/-- The first instruction of a byte sequence, lowest address first, and the bytes after it (R33, R75). -/
def decodeBytes : List Byte → Except Reject (Instr × List Byte)
  | b0 :: b1 :: b2 :: b3 :: rest => (decode (wordOf [b0, b1, b2, b3])).map fun i => (i, rest)
  | _ => .error .truncated

/-! ### The encoder -/

/-- R65: the word whose fields are those of a Decoded Instruction. The Unknown case keeps only bits [6:0]. -/
def encodeDecoded : Decoded → Word
  | .r op rd rs1 rs2 f3 f7 => f7 ++ regBits rs2 ++ regBits rs1 ++ f3 ++ regBits rd ++ op
  | .i op rd rs1 f3 imm => imm.extractLsb' 0 12 ++ regBits rs1 ++ f3 ++ regBits rd ++ op
  | .s op rs1 rs2 f3 imm =>
    imm.extractLsb' 5 7 ++ regBits rs2 ++ regBits rs1 ++ f3 ++ imm.extractLsb' 0 5 ++ op
  | .u op rd imm => imm.extractLsb' 12 20 ++ regBits rd ++ op
  | .b op rs1 rs2 f3 imm =>
    imm.extractLsb' 12 1 ++ imm.extractLsb' 5 6 ++ regBits rs2 ++ regBits rs1 ++ f3
      ++ imm.extractLsb' 1 4 ++ imm.extractLsb' 11 1 ++ op
  | .j op rd imm =>
    imm.extractLsb' 20 1 ++ imm.extractLsb' 1 10 ++ imm.extractLsb' 11 1 ++ imm.extractLsb' 12 8
      ++ regBits rd ++ op
  | .unknown op => zext op

/-- The fields of each instruction, from the rows of R70. The immediate of SRAI is 0x00000400 + shamt (R138). -/
def fieldsOf : Instr → Decoded
  | .add rd rs1 rs2 => .r 0x33#7 rd rs1 rs2 0b000#3 0x00#7
  | .sub rd rs1 rs2 => .r 0x33#7 rd rs1 rs2 0b000#3 0x20#7
  | .sll rd rs1 rs2 => .r 0x33#7 rd rs1 rs2 0b001#3 0x00#7
  | .slt rd rs1 rs2 => .r 0x33#7 rd rs1 rs2 0b010#3 0x00#7
  | .sltu rd rs1 rs2 => .r 0x33#7 rd rs1 rs2 0b011#3 0x00#7
  | .xor rd rs1 rs2 => .r 0x33#7 rd rs1 rs2 0b100#3 0x00#7
  | .srl rd rs1 rs2 => .r 0x33#7 rd rs1 rs2 0b101#3 0x00#7
  | .sra rd rs1 rs2 => .r 0x33#7 rd rs1 rs2 0b101#3 0x20#7
  | .or rd rs1 rs2 => .r 0x33#7 rd rs1 rs2 0b110#3 0x00#7
  | .and rd rs1 rs2 => .r 0x33#7 rd rs1 rs2 0b111#3 0x00#7
  | .addi rd rs1 imm => .i 0x13#7 rd rs1 0b000#3 imm
  | .slli rd rs1 shamt => .i 0x13#7 rd rs1 0b001#3 (zext (0x00#7 ++ shamt))
  | .slti rd rs1 imm => .i 0x13#7 rd rs1 0b010#3 imm
  | .sltiu rd rs1 imm => .i 0x13#7 rd rs1 0b011#3 imm
  | .xori rd rs1 imm => .i 0x13#7 rd rs1 0b100#3 imm
  | .srli rd rs1 shamt => .i 0x13#7 rd rs1 0b101#3 (zext (0x00#7 ++ shamt))
  | .srai rd rs1 shamt => .i 0x13#7 rd rs1 0b101#3 (zext (0x20#7 ++ shamt))
  | .ori rd rs1 imm => .i 0x13#7 rd rs1 0b110#3 imm
  | .andi rd rs1 imm => .i 0x13#7 rd rs1 0b111#3 imm
  | .lb rd rs1 imm => .i 0x03#7 rd rs1 0b000#3 imm
  | .lh rd rs1 imm => .i 0x03#7 rd rs1 0b001#3 imm
  | .lw rd rs1 imm => .i 0x03#7 rd rs1 0b010#3 imm
  | .lbu rd rs1 imm => .i 0x03#7 rd rs1 0b100#3 imm
  | .lhu rd rs1 imm => .i 0x03#7 rd rs1 0b101#3 imm
  | .jalr rd rs1 imm => .i 0x67#7 rd rs1 0b000#3 imm
  | .sb rs1 rs2 imm => .s 0x23#7 rs1 rs2 0b000#3 imm
  | .sh rs1 rs2 imm => .s 0x23#7 rs1 rs2 0b001#3 imm
  | .sw rs1 rs2 imm => .s 0x23#7 rs1 rs2 0b010#3 imm
  | .lui rd imm => .u 0x37#7 rd imm
  | .auipc rd imm => .u 0x17#7 rd imm
  | .beq rs1 rs2 imm => .b 0x63#7 rs1 rs2 0b000#3 imm
  | .bne rs1 rs2 imm => .b 0x63#7 rs1 rs2 0b001#3 imm
  | .blt rs1 rs2 imm => .b 0x63#7 rs1 rs2 0b100#3 imm
  | .bge rs1 rs2 imm => .b 0x63#7 rs1 rs2 0b101#3 imm
  | .bltu rs1 rs2 imm => .b 0x63#7 rs1 rs2 0b110#3 imm
  | .bgeu rs1 rs2 imm => .b 0x63#7 rs1 rs2 0b111#3 imm
  | .jal rd imm => .j 0x6F#7 rd imm
  | .ecall => .i 0x73#7 0 0 0b000#3 0#32

/-- The 32-bit word of a well-formed instruction. -/
def encode (i : Instr) : Word := encodeDecoded (fieldsOf i)

/-- The bytes of that word as memory holds them, lowest address first (R33). -/
def encodeBytes (i : Instr) : List Byte := bytesOf (encode i) 4

/-! ### The opcode map and the host's view of the decoder -/

/-- R70's rows of the R class: mnemonic, match, mask. -/
def opcodeTableR : List (String × Word × Word) :=
  [("ADD", 0x00000033#32, 0xFE00707F#32), ("SUB", 0x40000033#32, 0xFE00707F#32),
   ("SLL", 0x00001033#32, 0xFE00707F#32), ("SLT", 0x00002033#32, 0xFE00707F#32),
   ("SLTU", 0x00003033#32, 0xFE00707F#32), ("XOR", 0x00004033#32, 0xFE00707F#32),
   ("SRL", 0x00005033#32, 0xFE00707F#32), ("SRA", 0x40005033#32, 0xFE00707F#32),
   ("OR", 0x00006033#32, 0xFE00707F#32), ("AND", 0x00007033#32, 0xFE00707F#32)]

/-- R70's rows of the I class. -/
def opcodeTableI : List (String × Word × Word) :=
  [("ADDI", 0x00000013#32, 0x0000707F#32), ("SLLI", 0x00001013#32, 0xFE00707F#32),
   ("SLTI", 0x00002013#32, 0x0000707F#32), ("SLTIU", 0x00003013#32, 0x0000707F#32),
   ("XORI", 0x00004013#32, 0x0000707F#32), ("SRLI", 0x00005013#32, 0xFE00707F#32),
   ("SRAI", 0x40005013#32, 0xFE00707F#32), ("ORI", 0x00006013#32, 0x0000707F#32),
   ("ANDI", 0x00007013#32, 0x0000707F#32), ("LB", 0x00000003#32, 0x0000707F#32),
   ("LH", 0x00001003#32, 0x0000707F#32), ("LW", 0x00002003#32, 0x0000707F#32),
   ("LBU", 0x00004003#32, 0x0000707F#32), ("LHU", 0x00005003#32, 0x0000707F#32),
   ("JALR", 0x00000067#32, 0x0000707F#32), ("ECALL", 0x00000073#32, 0xFFFFFFFF#32)]

/-- R70's rows of the S, U, B and J classes. -/
def opcodeTableSUBJ : List (String × Word × Word) :=
  [("SB", 0x00000023#32, 0x0000707F#32), ("SH", 0x00001023#32, 0x0000707F#32),
   ("SW", 0x00002023#32, 0x0000707F#32), ("LUI", 0x00000037#32, 0x0000007F#32),
   ("AUIPC", 0x00000017#32, 0x0000007F#32), ("BEQ", 0x00000063#32, 0x0000707F#32),
   ("BNE", 0x00001063#32, 0x0000707F#32), ("BLT", 0x00004063#32, 0x0000707F#32),
   ("BGE", 0x00005063#32, 0x0000707F#32), ("BLTU", 0x00006063#32, 0x0000707F#32),
   ("BGEU", 0x00007063#32, 0x0000707F#32), ("JAL", 0x0000006F#32, 0x0000007F#32)]

/-- The opcode map of R70, its 38 rows as data: a word `w` is the row's instruction exactly when
`w & mask = match`. `decode` does not use it; claims compare the two. -/
def opcodeTable : List (String × Word × Word) := opcodeTableR ++ opcodeTableI ++ opcodeTableSUBJ

/-- The instruction the decoder reads from an instruction whose bits are `w`, bit 0 the least significant bit of its one
word, given to it as the four bytes the memory would hold. -/
def decodeTableWord (nbits w : Nat) : Option Instr :=
  match decodeBytes (bytesOf (BitVec.ofNat 32 (w % 2 ^ nbits)) 4) with
  | .ok (i, _) => some i
  | .error _ => none

end Sys2Proof
end

