-- ==== Sys2Proof/Config.lean ====
section
/-! DEFINITION. What is fixed for a whole run: the launch parameters MEM_SIZE and IMAGE_LEN (00_scope.md R6). The spec
leaves no result open (70_reset_and_hazards.md R248), so there is no free value here. -/

namespace Sys2Proof

/-- The parameters a launch fixes (R6). They stand in State as plain data and no step changes them. -/
structure Config where
  /-- MEM_SIZE: the bytes of memory that exist are those at addresses 0 to `memSize - 1` (R30). -/
  memSize : Nat
  /-- IMAGE_LEN: the length in bytes of the loaded image; the run ends at a pc at or above it (R92). -/
  imageLen : Nat
  deriving DecidableEq, Repr

/-- R6: 1 ≤ MEM_SIZE ≤ 2^32 and 0 ≤ IMAGE_LEN ≤ MEM_SIZE. -/
def Config.wf (c : Config) : Bool :=
  decide (1 ≤ c.memSize) && decide (c.memSize ≤ 2 ^ 32) && decide (c.imageLen ≤ c.memSize)

/-- R6: "fixed capacity (reference value: 1 MiB)", 1048576 = 0x00100000. -/
def Config.referenceMemSize : Nat := 0x00100000

end Sys2Proof
end

