-- ==== Sys2Proof/Machine/State.lean ====
section
/-! DEFINITION. The whole state of the machine as plain data: registers, pc, memory, run status (10_state.md), and the
launch parameters that are fixed for a run (00_scope.md R6). -/

namespace Sys2Proof.Machine

/-- The two normal ends of a run (R220, R221). -/
inductive HaltReason where
  | ecall
  | endOfImage
  deriving DecidableEq, Repr

/-- Who made a memory access: kind ∈ {fetch, load, store} (R18). -/
inductive AccessKind where
  | fetch
  | load
  | store
  deriving DecidableEq, Repr

/-- The widths of a memory access: n ∈ {1, 2, 4} (R34, R40). -/
inductive Width where
  | byte
  | half
  | word
  deriving DecidableEq, Repr

/-- The number of bytes of an access. -/
def Width.bytes : Width → Nat
  | .byte => 1
  | .half => 2
  | .word => 4

/-- What a fault records (R222, R223). -/
inductive FaultReason where
  /-- InvalidEncoding(pc, word): the word matches no row of the opcode table. -/
  | invalidEncoding (pc word : Word)
  /-- MemFault(kind, addr, n): an access of n bytes at `addr` that is not in range. -/
  | memFault (kind : AccessKind) (addr : Word) (width : Width)
  deriving DecidableEq, Repr

/-- The run status (R18). Halted and Faulted are terminal (R91). -/
inductive Status where
  | running
  | halted (reason : HaltReason)
  | faulted (reason : FaultReason)
  deriving DecidableEq, Repr

/-- Memory bytes by address, in one canonical form: addresses strictly rising and no entry equal to what an unlisted
address reads as (`Memory.wf` in Machine/Ops.lean). Which addresses exist is `Config.memSize` (R23, R30). -/
abbrev Memory := List Host.Cell

/-- The machine state (R10, R15, R18, R23) and the parameters of the launch (R6). -/
structure State where
  /-- The 32 slots of the Register File; slot 0 is never written and never read (R10, R11, R12). -/
  regs : Vector Word 32
  /-- The program counter: a byte address (R15). -/
  pc : Word
  /-- The memory (R23). -/
  mem : Memory
  /-- The run status (R18). -/
  status : Status
  /-- MEM_SIZE and IMAGE_LEN: fixed for the run (R6). -/
  cfg : Config
  deriving DecidableEq, Repr

/-- Why no step exists. Raised by `step` alone, never by an instruction's meaning. -/
inductive Fault where
  /-- The run has ended normally; R91: no step is taken from a Halted state. Safe: nothing follows on the hardware. -/
  | afterHalt (reason : HaltReason)
  /-- The run has ended in a fault; R91: no step is taken from a Faulted state. Safe: nothing follows by the spec's
  decision D4. -/
  | afterFault (reason : FaultReason)
  deriving DecidableEq, Repr

/-- Why an instruction has no meaning in the model. -/
inductive Refusal where
  /-- An arm of `exec` that has no meaning yet. No arm raises it. Safe: the model stops there. -/
  | notModelled (mnemonic : String)
  deriving DecidableEq, Repr

/-- The outcome of a step or of an instruction. -/
abbrev Result := Host.Outcome State Fault Refusal

/-- The state before the first step with no image loaded (R25, R240): x1 to x31 and the pc are 0, status Running.
MEM_SIZE is the reference value, IMAGE_LEN is 0 and every memory byte reads as an unlisted one (log entries 1 to 4). -/
def State.reset : State where
  regs := Vector.replicate 32 0#32
  pc := 0#32
  mem := []
  status := .running
  cfg := { memSize := Config.referenceMemSize, imageLen := 0 }

end Sys2Proof.Machine
end

