-- ==== Sys2Proof/Machine/Flags.lean ====
section
/-! DEFINITION. The hardware has no flags and no condition codes (10_state.md R19): "the comparison instructions write
1 or 0 to a general register and the branches compare two registers directly". This file holds those comparisons. -/

namespace Sys2Proof.Machine

/-- `a = b` as bit vectors (R186). -/
def equal (a b : Word) : Bool := a == b

/-- `a <s b`: both read as two's complement (R8, R122). -/
def lessSigned (a b : Word) : Bool := a.slt b

/-- `a <u b`: both read as unsigned (R8, R122). -/
def lessUnsigned (a b : Word) : Bool := a.ult b

/-- The value 0x00000001 or 0x00000000 that a comparison writes (R115). -/
def oneOrZero (b : Bool) : Word := if b then 1#32 else 0#32

end Sys2Proof.Machine
end

