-- ==== Sys2Proof/Machine/Ops.lean ====
section
/-! DEFINITION. The named operations over registers, pc, memory and status. Every instruction reads and writes the
state through these alone. -/

namespace Sys2Proof.Machine

/-! ### Registers and pc -/

/-- `x[r]`: "returns 0 unconditionally for index 0" (R11). -/
def State.reg (s : State) (r : Reg) : Word := if r = 0 then 0#32 else s.regs[r]

/-- `x[r] <- v`: "no-op for index 0", the one write path of all writers (R12, R97). -/
def State.setReg (s : State) (r : Reg) (v : Word) : State :=
  if r = 0 then s else { s with regs := s.regs.set r v }

/-- `pc <- t` (R9). -/
def State.setPc (s : State) (t : Word) : State := { s with pc := t }

/-- AdvancePC: "adds 4 to PC", modulo 2^32 (R16, R98). -/
def State.advance (s : State) : State := s.setPc (s.pc + 4#32)

/-! ### Memory -/

/-- What an address that the memory does not list reads as: 0x00 (log entry 3; MEM_INIT, R243). -/
def Memory.unlisted : Byte := 0x00#8

/-- `mem[a]` (R23). -/
def Memory.byteAt : Memory → Nat → Byte
  | [], _ => Memory.unlisted
  | (k, v) :: rest, a => if k = a then v else Memory.byteAt rest a

/-- The memory with no entry at `a`. -/
def Memory.removeByte (m : Memory) (a : Nat) : Memory := m.filter fun cell => decide (cell.1 ≠ a)

/-- The memory with the entry `(a, b)` put before the first higher address. -/
def Memory.insertByte : Memory → Nat → Byte → Memory
  | [], a, b => [(a, b)]
  | (k, v) :: rest, a, b => if a < k then (a, b) :: (k, v) :: rest else (k, v) :: Memory.insertByte rest a b

/-- `mem[a] := b`, keeping the canonical form: writing what an unlisted address reads as removes the entry. -/
def Memory.setByte (m : Memory) (a : Nat) (b : Byte) : Memory :=
  if b = Memory.unlisted then m.removeByte a else (m.removeByte a).insertByte a b

/-- The canonical form: every listed address is at least `low`, addresses rise strictly, and no listed byte is what an
unlisted address reads as. -/
def Memory.wfFrom : Nat → Memory → Bool
  | _, [] => true
  | low, (k, v) :: rest => decide (low ≤ k) && decide (v ≠ Memory.unlisted) && Memory.wfFrom (k + 1) rest

/-- The canonical form of a memory: equal memories are equal lists. -/
def Memory.wf (m : Memory) : Bool := Memory.wfFrom 0 m

/-- The `n` bytes at `a`, `a + 1`, ..., lowest address first. -/
def Memory.bytesAt (m : Memory) (a n : Nat) : List Byte := (List.range n).map fun i => m.byteAt (a + i)

/-- Writes the bytes at `a`, `a + 1`, ..., lowest address first. -/
def Memory.setBytes : Memory → Nat → List Byte → Memory
  | m, _, [] => m
  | m, a, b :: bs => Memory.setBytes (m.setByte a b) (a + 1) bs

/-- The bounds test: addr + n ≤ MEM_SIZE, "the sum taken in unbounded integers" (R36). -/
def State.inRange (s : State) (addr : Word) (w : Width) : Bool := decide (addr.toNat + w.bytes ≤ s.cfg.memSize)

/-- MemRead(addr, n): the little-endian value of the n bytes, its upper bits zero, or MemFault (R34, R36). No alignment
is required (R37). -/
def State.memRead (s : State) (kind : AccessKind) (addr : Word) (w : Width) : Except FaultReason Word :=
  if s.inRange addr w then .ok (wordOf (s.mem.bytesAt addr.toNat w.bytes)) else .error (.memFault kind addr w)

/-- MemWrite(addr, n, v): the low n bytes of `v` at addr to addr + n − 1, or MemFault and no byte written (R35, R36). -/
def State.memWrite (s : State) (addr : Word) (w : Width) (v : Word) : Except FaultReason State :=
  if s.inRange addr w then .ok { s with mem := s.mem.setBytes addr.toNat (bytesOf v w.bytes) }
  else .error (.memFault .store addr w)

/-! ### The ends of a run

The hardware has no trap (R228) and hence no return from one (R229): an event changes the status and nothing else, and
no instruction runs after it. `stop` is the one shared operation; `halt` and `raise` are its two uses. -/

/-- The status leaves Running; x, pc and mem stay as they are (R96, R226). -/
def State.stop (s : State) (st : Status) : Result := .next { s with status := st }

/-- `halt(reason)`: a normal end (R220, R221). -/
def State.halt (s : State) (reason : HaltReason) : Result := s.stop (.halted reason)

/-- `raise InvalidEncoding(..)` or `raise MemFault(..)`: a fault (R222, R223). -/
def State.raise (s : State) (reason : FaultReason) : Result := s.stop (.faulted reason)

/-! ### The start of a step -/

/-- The end-of-image test: pc ≥ IMAGE_LEN, unsigned (R92). -/
def State.atEndOfImage (s : State) : Bool := decide (s.cfg.imageLen ≤ s.pc.toNat)

/-- `word = MemRead(pc, 4)` (R38, R93). -/
def State.fetchWord (s : State) : Except FaultReason Word := s.memRead .fetch s.pc .word

/-- `s` with the bytes of a word placed at the pc, as an image that covers them: MEM_SIZE and IMAGE_LEN are raised where
they are too small, and the status is Running. This is what a loader would have left (R244). -/
def State.placeWordAtPc (s : State) (w : Word) : State :=
  { s with
    mem := s.mem.setBytes s.pc.toNat (bytesOf w 4)
    status := .running
    cfg := { memSize := max s.cfg.memSize (s.pc.toNat + 4), imageLen := max s.cfg.imageLen (s.pc.toNat + 4) } }

end Sys2Proof.Machine
end

