-- ==== Sys2Proof/Machine/Operands.lean ====
section
/-! DEFINITION. Every operand form: the effective address (20_memory.md R39), the shift amounts (R114, R131), the shifts
(R8), the extension of a loaded value (R34, R150), and the shapes an instruction's effect can have. -/

namespace Sys2Proof.Machine

/-- The only addressing mode: `ea = x[rs1] + imm` modulo 2^32 (R39). -/
def State.effectiveAddress (s : State) (rs1 : Reg) (imm : Word) : Word := s.reg rs1 + imm

/-- A shift amount taken from a register: `x[rs2] & 0x1F` (R114, R118, R119). -/
def registerShift (v : Word) : Nat := (v &&& 0x1F#32).toNat

/-- A shift amount taken from the 5-bit field of a shift-immediate (R131). -/
def immediateShift (shamt : BitVec 5) : Nat := shamt.toNat

/-- `v << n`, the low 32 bits kept (R8). -/
def shiftLeft (v : Word) (n : Nat) : Word := v <<< n

/-- `v >>u n`, zeros entering at the top (R8). -/
def shiftRightLogical (v : Word) (n : Nat) : Word := v >>> n

/-- `v >>s n`, copies of bit 31 entering at the top (R8, R119). -/
def shiftRightArithmetic (v : Word) (n : Nat) : Word := v.sshiftRight n

/-- The low byte of a value read, sign-extended from bit 7 (LB, R152). -/
def signedByte (v : Word) : Word := sext (v.setWidth 8)

/-- The low halfword of a value read, sign-extended from bit 15 (LH, R153). -/
def signedHalf (v : Word) : Word := sext (v.setWidth 16)

/-- The low byte of a value read, zero-extended (LBU, R155). -/
def unsignedByte (v : Word) : Word := zext (v.setWidth 8)

/-- The low halfword of a value read, zero-extended (LHU, R156). -/
def unsignedHalf (v : Word) : Word := zext (v.setWidth 16)

/-- A whole word, with no extension (LW, R154). -/
def wholeWord (v : Word) : Word := v

/-- `x[rd] <- v; pc <- pc + 4`: the end of every instruction that writes a register and does not own the pc (R98). -/
def State.writeAndAdvance (s : State) (rd : Reg) (v : Word) : Result := .next (s.setReg rd v).advance

/-- `x[rd] <- pc + 4; pc <- target`, with the pc before the step: the end of JAL and JALR (R165, R200). -/
def State.linkAndJump (s : State) (rd : Reg) (target : Word) : Result :=
  .next ((s.setReg rd (s.pc + 4#32)).setPc target)

/-- `if taken then pc <- pc + imm else pc <- pc + 4` (R185). -/
def State.branch (s : State) (taken : Bool) (imm : Word) : Result :=
  .next (if taken then s.setPc (s.pc + imm) else s.advance)

/-- The steps (2) to (5) of R150: address, bounds-checked read, extension, register write. The read is made even when
`rd` is register 0 (R97). -/
def State.load (s : State) (w : Width) (extend : Word → Word) (rd rs1 : Reg) (imm : Word) : Result :=
  match s.memRead .load (s.effectiveAddress rs1 imm) w with
  | .ok v => s.writeAndAdvance rd (extend v)
  | .error reason => s.raise reason

/-- The steps (2) to (4) of R170: address, bounds-checked write, pc + 4. -/
def State.store (s : State) (w : Width) (rs1 rs2 : Reg) (imm : Word) : Result :=
  match s.memWrite (s.effectiveAddress rs1 imm) w (s.reg rs2) with
  | .ok t => .next t.advance
  | .error reason => s.raise reason

end Sys2Proof.Machine
end

