-- ==== Sys2Proof/Machine/Branch.lean ====
section
/-! DEFINITION. The conditional branches, which own the pc update taken or not (47_branch.md R185; R98). -/

namespace Sys2Proof.Machine

/-- BEQ (R187). -/
def execBeq (rs1 rs2 : Reg) (imm : Word) (s : State) : Result :=
  s.branch (equal (s.reg rs1) (s.reg rs2)) imm

/-- BNE (R188). -/
def execBne (rs1 rs2 : Reg) (imm : Word) (s : State) : Result :=
  s.branch (!equal (s.reg rs1) (s.reg rs2)) imm

/-- BLT (R189). -/
def execBlt (rs1 rs2 : Reg) (imm : Word) (s : State) : Result :=
  s.branch (lessSigned (s.reg rs1) (s.reg rs2)) imm

/-- BGE (R190). -/
def execBge (rs1 rs2 : Reg) (imm : Word) (s : State) : Result :=
  s.branch (!lessSigned (s.reg rs1) (s.reg rs2)) imm

/-- BLTU (R191). -/
def execBltu (rs1 rs2 : Reg) (imm : Word) (s : State) : Result :=
  s.branch (lessUnsigned (s.reg rs1) (s.reg rs2)) imm

/-- BGEU (R192). -/
def execBgeu (rs1 rs2 : Reg) (imm : Word) (s : State) : Result :=
  s.branch (!lessUnsigned (s.reg rs1) (s.reg rs2)) imm

end Sys2Proof.Machine
end

