-- ==== Sys2Proof/Machine/ImmediateAlu.lean ====
section
/-! DEFINITION. The ALU instructions with immediate (42_alu_immediate.md). The second operand is the sign-extended immediate,
or the 5-bit amount of a shift (R130, R131). -/

namespace Sys2Proof.Machine

/-- ADDI: the sum modulo 2^32 (R132). -/
def execAddi (rd rs1 : Reg) (imm : Word) (s : State) : Result :=
  s.writeAndAdvance rd (s.reg rs1 + imm)

/-- SLLI (R133). -/
def execSlli (rd rs1 : Reg) (shamt : BitVec 5) (s : State) : Result :=
  s.writeAndAdvance rd (shiftLeft (s.reg rs1) (immediateShift shamt))

/-- SLTI (R134). -/
def execSlti (rd rs1 : Reg) (imm : Word) (s : State) : Result :=
  s.writeAndAdvance rd (oneOrZero (lessSigned (s.reg rs1) imm))

/-- SLTIU: the sign-extended immediate is compared as unsigned (R135). -/
def execSltiu (rd rs1 : Reg) (imm : Word) (s : State) : Result :=
  s.writeAndAdvance rd (oneOrZero (lessUnsigned (s.reg rs1) imm))

/-- XORI (R136). -/
def execXori (rd rs1 : Reg) (imm : Word) (s : State) : Result :=
  s.writeAndAdvance rd (s.reg rs1 ^^^ imm)

/-- SRLI (R137). -/
def execSrli (rd rs1 : Reg) (shamt : BitVec 5) (s : State) : Result :=
  s.writeAndAdvance rd (shiftRightLogical (s.reg rs1) (immediateShift shamt))

/-- SRAI (R138). -/
def execSrai (rd rs1 : Reg) (shamt : BitVec 5) (s : State) : Result :=
  s.writeAndAdvance rd (shiftRightArithmetic (s.reg rs1) (immediateShift shamt))

/-- ORI (R139). -/
def execOri (rd rs1 : Reg) (imm : Word) (s : State) : Result :=
  s.writeAndAdvance rd (s.reg rs1 ||| imm)

/-- ANDI (R140). -/
def execAndi (rd rs1 : Reg) (imm : Word) (s : State) : Result :=
  s.writeAndAdvance rd (s.reg rs1 &&& imm)

end Sys2Proof.Machine
end

