-- ==== Sys2Proof/Machine/Jump.lean ====
section
/-! DEFINITION. The two jumps, which own the pc update (44_jalr.md, 48_jal.md; R98). -/

namespace Sys2Proof.Machine

/-- JALR: target `(x[rs1] + imm) & 0xFFFFFFFE` from the old x[rs1], link `pc + 4` (R165). The target is not checked
(R167). -/
def execJalr (rd rs1 : Reg) (imm : Word) (s : State) : Result :=
  s.linkAndJump rd ((s.reg rs1 + imm) &&& 0xFFFFFFFE#32)

/-- JAL: target `pc + imm`, link `pc + 4`, both from the pc of the JAL (R200). The target is not checked (R201). -/
def execJal (rd : Reg) (imm : Word) (s : State) : Result := s.linkAndJump rd (s.pc + imm)

end Sys2Proof.Machine
end

