-- ==== Sys2Proof/Machine/Load.lean ====
section
/-! DEFINITION. The loads (43_load.md). -/

namespace Sys2Proof.Machine

/-- LB (R152). -/
def execLb (rd rs1 : Reg) (imm : Word) (s : State) : Result := s.load .byte signedByte rd rs1 imm

/-- LH (R153). -/
def execLh (rd rs1 : Reg) (imm : Word) (s : State) : Result := s.load .half signedHalf rd rs1 imm

/-- LW (R154). -/
def execLw (rd rs1 : Reg) (imm : Word) (s : State) : Result := s.load .word wholeWord rd rs1 imm

/-- LBU (R155). -/
def execLbu (rd rs1 : Reg) (imm : Word) (s : State) : Result := s.load .byte unsignedByte rd rs1 imm

/-- LHU (R156). -/
def execLhu (rd rs1 : Reg) (imm : Word) (s : State) : Result := s.load .half unsignedHalf rd rs1 imm

end Sys2Proof.Machine
end

