-- ==== Sys2Proof/Machine/RegisterAlu.lean ====
section
/-! DEFINITION. The R-class ALU instructions (41_alu_register.md). Each reads `x[rs1]` and `x[rs2]` before the step, writes the
result to `x[rd]` and advances the pc (R110). -/

namespace Sys2Proof.Machine

/-- ADD: the sum modulo 2^32 (R112). -/
def execAdd (rd rs1 rs2 : Reg) (s : State) : Result :=
  s.writeAndAdvance rd (s.reg rs1 + s.reg rs2)

/-- SUB: the difference modulo 2^32 (R113). -/
def execSub (rd rs1 rs2 : Reg) (s : State) : Result :=
  s.writeAndAdvance rd (s.reg rs1 - s.reg rs2)

/-- SLL (R114). -/
def execSll (rd rs1 rs2 : Reg) (s : State) : Result :=
  s.writeAndAdvance rd (shiftLeft (s.reg rs1) (registerShift (s.reg rs2)))

/-- SLT (R115). -/
def execSlt (rd rs1 rs2 : Reg) (s : State) : Result :=
  s.writeAndAdvance rd (oneOrZero (lessSigned (s.reg rs1) (s.reg rs2)))

/-- SLTU (R116). -/
def execSltu (rd rs1 rs2 : Reg) (s : State) : Result :=
  s.writeAndAdvance rd (oneOrZero (lessUnsigned (s.reg rs1) (s.reg rs2)))

/-- XOR (R117). -/
def execXor (rd rs1 rs2 : Reg) (s : State) : Result :=
  s.writeAndAdvance rd (s.reg rs1 ^^^ s.reg rs2)

/-- SRL (R118). -/
def execSrl (rd rs1 rs2 : Reg) (s : State) : Result :=
  s.writeAndAdvance rd (shiftRightLogical (s.reg rs1) (registerShift (s.reg rs2)))

/-- SRA (R119). -/
def execSra (rd rs1 rs2 : Reg) (s : State) : Result :=
  s.writeAndAdvance rd (shiftRightArithmetic (s.reg rs1) (registerShift (s.reg rs2)))

/-- OR (R120). -/
def execOr (rd rs1 rs2 : Reg) (s : State) : Result :=
  s.writeAndAdvance rd (s.reg rs1 ||| s.reg rs2)

/-- AND (R121). -/
def execAnd (rd rs1 rs2 : Reg) (s : State) : Result :=
  s.writeAndAdvance rd (s.reg rs1 &&& s.reg rs2)

end Sys2Proof.Machine
end

