-- ==== Sys2Proof/Machine/Store.lean ====
section
/-! DEFINITION. The stores (45_store.md). -/

namespace Sys2Proof.Machine

/-- SB (R172). -/
def execSb (rs1 rs2 : Reg) (imm : Word) (s : State) : Result := s.store .byte rs1 rs2 imm

/-- SH (R173). -/
def execSh (rs1 rs2 : Reg) (imm : Word) (s : State) : Result := s.store .half rs1 rs2 imm

/-- SW (R174). -/
def execSw (rs1 rs2 : Reg) (imm : Word) (s : State) : Result := s.store .word rs1 rs2 imm

end Sys2Proof.Machine
end

