-- ==== Sys2Proof/Machine/System.lean ====
section
/-! DEFINITION. The one instruction of the SYSTEM opcode (49_system_and_unknown.md). -/

namespace Sys2Proof.Machine

/-- ECALL: `halt(Ecall)`. No register, no memory byte and not the pc is changed (R205, R220). -/
def execEcall (s : State) : Result := s.halt .ecall

end Sys2Proof.Machine
end

