-- ==== Sys2Proof/Machine/UpperImmediate.lean ====
section
/-! DEFINITION. The upper-immediate instructions (46_upper_immediate.md). -/

namespace Sys2Proof.Machine

/-- LUI: `x[rd] <- imm_U` (R180); the Decoder has already placed the immediate in bits [31:12] (R182). -/
def execLui (rd : Reg) (imm : Word) (s : State) : Result := s.writeAndAdvance rd imm

/-- AUIPC: `x[rd] <- pc + imm_U`, the pc of the AUIPC itself (R181). -/
def execAuipc (rd : Reg) (imm : Word) (s : State) : Result := s.writeAndAdvance rd (s.pc + imm)

end Sys2Proof.Machine
end

