-- ==== Sys2Proof/Machine/Step.lean ====
section
/-! DEFINITION. One step of the Interpreter Loop (40_step_cycle.md R90) and the host's way to place an instruction. -/

namespace Sys2Proof.Machine

/-- One pass of "fetch → decode → execute → advance", defined only when the status is Running (R90, R91). The tests come
in the order of R225: end of image, fetch bounds, encoding; the bounds of a data access are inside the meaning. -/
def step (s : State) : Host.Outcome State Fault Refusal :=
  match s.status with
  | .halted reason => .fault (.afterHalt reason)
  | .faulted reason => .fault (.afterFault reason)
  | .running =>
    if s.atEndOfImage then s.halt .endOfImage
    else
      match s.fetchWord with
      | .error reason => s.raise reason
      | .ok word =>
        match decode word with
        | .error _ => s.raise (.invalidEncoding s.pc word)
        | .ok i => exec i s

/-- `s` with the instruction whose bits are `w` where the next step fetches: its bytes at the pc, inside an image that
covers them (log entry 6). -/
def State.withFetchWord (s : State) (nbits w : Nat) : State :=
  s.placeWordAtPc (BitVec.ofNat 32 (w % 2 ^ nbits))

end Sys2Proof.Machine
end

