-- ==== Sys2Proof/Machine/Launch.lean ====
section
/-! DEFINITION. The external loader: it acts once, before the first step (20_memory.md R46, 70_reset_and_hazards.md R240
to R244). "A model builds the reset state with a function of (MEM_SIZE, image, MEM_INIT) and nothing else" (R241). -/

namespace Sys2Proof.Machine

/-- The canonical memory whose bytes at addresses 0 to `n - 1` are those of `content`. -/
def Memory.ofFn (n : Nat) (content : Nat → Byte) : Memory :=
  (List.range n).filterMap fun a => if content a = Memory.unlisted then none else some (a, content a)

/-- Byte `a` at launch: the image's byte below IMAGE_LEN, MEM_INIT at and above it (R240, R243, R244). -/
def launchByte (image : List Byte) (memInit : Nat → Byte) (a : Nat) : Byte := (image[a]?).getD (memInit a)

/-- The state before the first step of a run of `image` on a memory of `memSize` bytes, with MEM_INIT = `memInit`. There
is none when MEM_SIZE is out of range (R6) or the image is longer than the memory (R238, R244). -/
def State.launch (memSize : Nat) (image : List Byte) (memInit : Nat → Byte) : Option State :=
  let cfg : Config := { memSize := memSize, imageLen := image.length }
  if cfg.wf then
    some { State.reset with mem := Memory.ofFn memSize (launchByte image memInit), cfg := cfg }
  else none

end Sys2Proof.Machine
end

