-- ==== Sys2Proof/Machine/Report.lean ====
section
/-! DEFINITION. What the driver of the core reads after a run (60_exceptions.md R232, 40_step_cycle.md R102). It stands
outside the core and changes nothing. -/

namespace Sys2Proof.Machine

/-- The register dump: "all 32 registers as raw little-endian 32-bit words", x0 first, x0 reading as 0 (R102, R232). -/
def State.registerDump (s : State) : List Byte :=
  (List.finRange 32).flatMap fun r => bytesOf (s.reg r) 4

/-- The exit code of a run that ended: 0 for both normal ends. The spec leaves the code of a Faulted run open and a
running machine has none (R232). -/
def Status.exitCode : Status → Option Nat
  | .halted _ => some 0
  | .running => none
  | .faulted _ => none

end Sys2Proof.Machine
end

