-- ==== Sys2Proof/Safety.lean ====
section
/-! DEFINITION. The terms claims are stated in: the shape of a legal state, the effect an instruction may have, the end
of a run, and a safe run. -/

namespace Sys2Proof

/-- The general registers an instruction reads (the table of 10_state.md R13). -/
def Instr.reads : Instr → List Reg
  | .add _ rs1 rs2 => [rs1, rs2]
  | .sub _ rs1 rs2 => [rs1, rs2]
  | .sll _ rs1 rs2 => [rs1, rs2]
  | .slt _ rs1 rs2 => [rs1, rs2]
  | .sltu _ rs1 rs2 => [rs1, rs2]
  | .xor _ rs1 rs2 => [rs1, rs2]
  | .srl _ rs1 rs2 => [rs1, rs2]
  | .sra _ rs1 rs2 => [rs1, rs2]
  | .or _ rs1 rs2 => [rs1, rs2]
  | .and _ rs1 rs2 => [rs1, rs2]
  | .addi _ rs1 _ => [rs1]
  | .slli _ rs1 _ => [rs1]
  | .slti _ rs1 _ => [rs1]
  | .sltiu _ rs1 _ => [rs1]
  | .xori _ rs1 _ => [rs1]
  | .srli _ rs1 _ => [rs1]
  | .srai _ rs1 _ => [rs1]
  | .ori _ rs1 _ => [rs1]
  | .andi _ rs1 _ => [rs1]
  | .lb _ rs1 _ => [rs1]
  | .lh _ rs1 _ => [rs1]
  | .lw _ rs1 _ => [rs1]
  | .lbu _ rs1 _ => [rs1]
  | .lhu _ rs1 _ => [rs1]
  | .jalr _ rs1 _ => [rs1]
  | .sb rs1 rs2 _ => [rs1, rs2]
  | .sh rs1 rs2 _ => [rs1, rs2]
  | .sw rs1 rs2 _ => [rs1, rs2]
  | .lui .. => []
  | .auipc .. => []
  | .beq rs1 rs2 _ => [rs1, rs2]
  | .bne rs1 rs2 _ => [rs1, rs2]
  | .blt rs1 rs2 _ => [rs1, rs2]
  | .bge rs1 rs2 _ => [rs1, rs2]
  | .bltu rs1 rs2 _ => [rs1, rs2]
  | .bgeu rs1 rs2 _ => [rs1, rs2]
  | .jal .. => []
  | .ecall => []

/-- The general register an instruction writes (the table of 10_state.md R13). -/
def Instr.writes : Instr → Option Reg
  | .add rd _ _ => some rd
  | .sub rd _ _ => some rd
  | .sll rd _ _ => some rd
  | .slt rd _ _ => some rd
  | .sltu rd _ _ => some rd
  | .xor rd _ _ => some rd
  | .srl rd _ _ => some rd
  | .sra rd _ _ => some rd
  | .or rd _ _ => some rd
  | .and rd _ _ => some rd
  | .addi rd _ _ => some rd
  | .slli rd _ _ => some rd
  | .slti rd _ _ => some rd
  | .sltiu rd _ _ => some rd
  | .xori rd _ _ => some rd
  | .srli rd _ _ => some rd
  | .srai rd _ _ => some rd
  | .ori rd _ _ => some rd
  | .andi rd _ _ => some rd
  | .lb rd _ _ => some rd
  | .lh rd _ _ => some rd
  | .lw rd _ _ => some rd
  | .lbu rd _ _ => some rd
  | .lhu rd _ _ => some rd
  | .jalr rd _ _ => some rd
  | .sb .. => none
  | .sh .. => none
  | .sw .. => none
  | .lui rd _ => some rd
  | .auipc rd _ => some rd
  | .beq .. => none
  | .bne .. => none
  | .blt .. => none
  | .bge .. => none
  | .bltu .. => none
  | .bgeu .. => none
  | .jal rd _ => some rd
  | .ecall => none

/-- The same instruction with x0 in place of its destination; one that writes no register stays as it is. -/
def Instr.toRegisterZero : Instr → Instr
  | .add _ rs1 rs2 => .add 0 rs1 rs2
  | .sub _ rs1 rs2 => .sub 0 rs1 rs2
  | .sll _ rs1 rs2 => .sll 0 rs1 rs2
  | .slt _ rs1 rs2 => .slt 0 rs1 rs2
  | .sltu _ rs1 rs2 => .sltu 0 rs1 rs2
  | .xor _ rs1 rs2 => .xor 0 rs1 rs2
  | .srl _ rs1 rs2 => .srl 0 rs1 rs2
  | .sra _ rs1 rs2 => .sra 0 rs1 rs2
  | .or _ rs1 rs2 => .or 0 rs1 rs2
  | .and _ rs1 rs2 => .and 0 rs1 rs2
  | .addi _ rs1 imm => .addi 0 rs1 imm
  | .slli _ rs1 shamt => .slli 0 rs1 shamt
  | .slti _ rs1 imm => .slti 0 rs1 imm
  | .sltiu _ rs1 imm => .sltiu 0 rs1 imm
  | .xori _ rs1 imm => .xori 0 rs1 imm
  | .srli _ rs1 shamt => .srli 0 rs1 shamt
  | .srai _ rs1 shamt => .srai 0 rs1 shamt
  | .ori _ rs1 imm => .ori 0 rs1 imm
  | .andi _ rs1 imm => .andi 0 rs1 imm
  | .lb _ rs1 imm => .lb 0 rs1 imm
  | .lh _ rs1 imm => .lh 0 rs1 imm
  | .lw _ rs1 imm => .lw 0 rs1 imm
  | .lbu _ rs1 imm => .lbu 0 rs1 imm
  | .lhu _ rs1 imm => .lhu 0 rs1 imm
  | .jalr _ rs1 imm => .jalr 0 rs1 imm
  | .sb rs1 rs2 imm => .sb rs1 rs2 imm
  | .sh rs1 rs2 imm => .sh rs1 rs2 imm
  | .sw rs1 rs2 imm => .sw rs1 rs2 imm
  | .lui _ imm => .lui 0 imm
  | .auipc _ imm => .auipc 0 imm
  | .beq rs1 rs2 imm => .beq rs1 rs2 imm
  | .bne rs1 rs2 imm => .bne rs1 rs2 imm
  | .blt rs1 rs2 imm => .blt rs1 rs2 imm
  | .bge rs1 rs2 imm => .bge rs1 rs2 imm
  | .bltu rs1 rs2 imm => .bltu rs1 rs2 imm
  | .bgeu rs1 rs2 imm => .bgeu rs1 rs2 imm
  | .jal _ imm => .jal 0 imm
  | .ecall => .ecall

end Sys2Proof

namespace Sys2Proof.Machine

/-- Every listed address exists: it is below MEM_SIZE (R30). -/
def Memory.within (size : Nat) (m : Memory) : Bool := m.all fun cell => decide (cell.1 < size)

/-- What holds of every state of a run: legal parameters (R6), a canonical memory inside MEM_SIZE (R23, R30), slot 0 at
its reset value (R12) and an even pc (R17). -/
def State.wf (s : State) : Bool :=
  s.cfg.wf && s.mem.wf && s.mem.within s.cfg.memSize && decide (s.regs[0] = 0#32) && !s.pc.getLsbD 0

/-- From `s` to `t`: register `rd` reads `v` (no register changes when `rd` is x0), the pc is `p`, and every other
register, every byte of memory, the status and the parameters are as they were. -/
def RegisterEffect (s t : State) (rd : Reg) (v p : Word) : Prop :=
  (∀ r : Reg, t.reg r = if r = rd ∧ r ≠ 0 then v else s.reg r) ∧ t.pc = p ∧
    (∀ a : Nat, t.mem.byteAt a = s.mem.byteAt a) ∧ t.status = s.status ∧ t.cfg = s.cfg

/-- From `s` to `t`: the pc is `p`, and every register, every byte of memory, the status and the parameters are as they
were. -/
def PcEffect (s t : State) (p : Word) : Prop :=
  (∀ r : Reg, t.reg r = s.reg r) ∧ t.pc = p ∧ (∀ a : Nat, t.mem.byteAt a = s.mem.byteAt a) ∧
    t.status = s.status ∧ t.cfg = s.cfg

/-- From `s` to `t`: the `n` bytes from address `base` up are the low `n` bytes of `v`, least significant first, the pc
is advanced by 4, and every other byte, every register, the status and the parameters are as they were. -/
def StoreEffect (s t : State) (base n : Nat) (v : Word) : Prop :=
  (∀ a : Nat, t.mem.byteAt a =
    if base ≤ a ∧ a < base + n then BitVec.ofNat 8 (v.toNat / 2 ^ (8 * (a - base))) else s.mem.byteAt a) ∧
    (∀ r : Reg, t.reg r = s.reg r) ∧ t.pc = s.pc + 4#32 ∧ t.status = s.status ∧ t.cfg = s.cfg

/-- `t` is `s` with status `st` and nothing else changed (R226). -/
def StopsWith (s t : State) (st : Status) : Prop := t = { s with status := st }

/-- The end-of-image test passes and the word at the pc is `w`: the next step executes `w` (R90). -/
def AboutToExecute (s : State) (w : Word) : Prop :=
  s.status = .running ∧ s.pc.toNat < s.cfg.imageLen ∧ s.pc.toNat + 4 ≤ s.cfg.memSize ∧
    ∀ k : Nat, k < 4 → s.mem.byteAt (s.pc.toNat + k) = BitVec.ofNat 8 (w.toNat / 2 ^ (8 * k))

/-- The states of a run from `s` (R100). -/
inductive Reaches (s : State) : State → Prop where
  | here : Reaches s s
  | more {t u : State} : Reaches s t → step t = .next u → Reaches s u

/-- A safe run: no state of it is Faulted (R100). -/
def SafeRun (s : State) : Prop := ∀ t, Reaches s t → ∀ reason, t.status ≠ .faulted reason

end Sys2Proof.Machine
end

