-- ==== Sys2Proof/Certificates/Slice0/Obligations.lean ====
section
/-! DEFINITION. The statements about the model, each one a `def Obligations.<Name> : Prop`.

Where a statement rests on a point the spec marks as its own decision (92_eei_decisions.md D<n>) or inference, or on a
choice of the model (notes/assumptions/<n>.md), its docstring names it. -/

open Sys2Proof Sys2Proof.Machine

/-! ## The Decoder and the encoding -/

/-- R53, R54: the class of a Decoded Instruction is fixed by the low seven bits of the word alone: ten opcodes have a
class and every other one is Unknown. -/
def Obligations.OpcodeDecidesTheClass : Prop :=
  ∀ w : Word,
    ((decodeClass w).tag = .R ↔ w.toNat % 128 = 0x33) ∧
    ((decodeClass w).tag = .I ↔
      w.toNat % 128 = 0x03 ∨ w.toNat % 128 = 0x13 ∨ w.toNat % 128 = 0x67 ∨ w.toNat % 128 = 0x73) ∧
    ((decodeClass w).tag = .S ↔ w.toNat % 128 = 0x23) ∧
    ((decodeClass w).tag = .U ↔ w.toNat % 128 = 0x17 ∨ w.toNat % 128 = 0x37) ∧
    ((decodeClass w).tag = .B ↔ w.toNat % 128 = 0x63) ∧
    ((decodeClass w).tag = .J ↔ w.toNat % 128 = 0x6F) ∧
    ((decodeClass w).tag = .Unknown ↔
      w.toNat % 128 ∉ [0x03, 0x13, 0x17, 0x23, 0x33, 0x37, 0x63, 0x67, 0x6F, 0x73])

/-- R53, R56: every field, in every class that carries it, is the unsigned number in its fixed bits of the word. -/
def Obligations.DecoderExtractsFieldsAtFixedBits : Prop :=
  ∀ w : Word,
    (∀ op rd rs1 rs2 f3 f7, decodeClass w = .r op rd rs1 rs2 f3 f7 →
      op.toNat = w.toNat % 2 ^ 7 ∧ rd.val = w.toNat / 2 ^ 7 % 2 ^ 5 ∧ rs1.val = w.toNat / 2 ^ 15 % 2 ^ 5 ∧
        rs2.val = w.toNat / 2 ^ 20 % 2 ^ 5 ∧ f3.toNat = w.toNat / 2 ^ 12 % 2 ^ 3 ∧ f7.toNat = w.toNat / 2 ^ 25) ∧
    (∀ op rd rs1 f3 imm, decodeClass w = .i op rd rs1 f3 imm →
      op.toNat = w.toNat % 2 ^ 7 ∧ rd.val = w.toNat / 2 ^ 7 % 2 ^ 5 ∧ rs1.val = w.toNat / 2 ^ 15 % 2 ^ 5 ∧
        f3.toNat = w.toNat / 2 ^ 12 % 2 ^ 3) ∧
    (∀ op rs1 rs2 f3 imm, decodeClass w = .s op rs1 rs2 f3 imm ∨ decodeClass w = .b op rs1 rs2 f3 imm →
      op.toNat = w.toNat % 2 ^ 7 ∧ rs1.val = w.toNat / 2 ^ 15 % 2 ^ 5 ∧ rs2.val = w.toNat / 2 ^ 20 % 2 ^ 5 ∧
        f3.toNat = w.toNat / 2 ^ 12 % 2 ^ 3) ∧
    (∀ op rd imm, decodeClass w = .u op rd imm ∨ decodeClass w = .j op rd imm →
      op.toNat = w.toNat % 2 ^ 7 ∧ rd.val = w.toNat / 2 ^ 7 % 2 ^ 5) ∧
    (∀ op, decodeClass w = .unknown op → op.toNat = w.toNat % 2 ^ 7)

/-- R57, R58, R59, R61: the I, S, B and J immediates, bit by bit, and their ranges. -/
def Obligations.DecoderReconstructsSignedImmediates : Prop :=
  ∀ w : Word,
    (∀ op rd rs1 f3 imm, decodeClass w = .i op rd rs1 f3 imm →
      (∀ k < 32, imm.getLsbD k = if k ≤ 10 then w.getLsbD (k + 20) else w.getLsbD 31) ∧
        -2048 ≤ imm.toInt ∧ imm.toInt ≤ 2047) ∧
    (∀ op rs1 rs2 f3 imm, decodeClass w = .s op rs1 rs2 f3 imm →
      (∀ k < 32, imm.getLsbD k =
        if k ≤ 4 then w.getLsbD (k + 7) else if k ≤ 10 then w.getLsbD (k + 20) else w.getLsbD 31) ∧
        -2048 ≤ imm.toInt ∧ imm.toInt ≤ 2047) ∧
    (∀ op rs1 rs2 f3 imm, decodeClass w = .b op rs1 rs2 f3 imm →
      (∀ k < 32, imm.getLsbD k =
        if k = 0 then false else if k ≤ 4 then w.getLsbD (k + 7) else if k ≤ 10 then w.getLsbD (k + 20)
        else if k = 11 then w.getLsbD 7 else w.getLsbD 31) ∧
        -4096 ≤ imm.toInt ∧ imm.toInt ≤ 4094) ∧
    (∀ op rd imm, decodeClass w = .j op rd imm →
      (∀ k < 32, imm.getLsbD k =
        if k = 0 then false else if k ≤ 10 then w.getLsbD (k + 20) else if k = 11 then w.getLsbD 20
        else if k ≤ 19 then w.getLsbD k else w.getLsbD 31) ∧
        -1048576 ≤ imm.toInt ∧ imm.toInt ≤ 1048574)

/-- R60: the U-immediate is `w & 0xFFFFF000`, and every multiple of 4096 can be produced. -/
def Obligations.DecoderPlacesTheUpperImmediate : Prop :=
  (∀ w op rd imm, decodeClass w = .u op rd imm →
    imm = w &&& 0xFFFFF000#32 ∧
      ∀ k < 32, imm.getLsbD k = if k ≤ 11 then false else w.getLsbD k) ∧
  (∀ v : Word, v.toNat % 4096 = 0 → ∃ w op rd, decodeClass w = .u op rd v)

/-- R62: sign extension of an N-bit field is exact: it is the shift-left-then-arithmetic-shift-right of the field, it is
explicit sign propagation, and an I, S, B or J immediate is negative exactly when the word is at least 0x80000000. -/
def Obligations.SignExtensionIsExact : Prop :=
  (∀ (n : Nat) (f : BitVec n), 0 < n → n ≤ 32 →
    sext f = ((zext f) <<< (32 - n)).sshiftRight (32 - n) ∧
    sext f = if f.getLsbD (n - 1) then zext f ||| (0xFFFFFFFF#32 <<< n) else zext f) ∧
  (∀ w op a b f3 imm, decodeClass w = .i op a b f3 imm ∨ decodeClass w = .s op a b f3 imm ∨
    decodeClass w = .b op a b f3 imm → (imm.toInt < 0 ↔ 0x80000000 ≤ w.toNat)) ∧
  (∀ w op rd imm, decodeClass w = .j op rd imm → (imm.toInt < 0 ↔ 0x80000000 ≤ w.toNat))

/-- Decoding the encoding of any well-formed instruction, every operand at every value its encoding admits, gives it
back: as a word, and as the four bytes memory holds, with whatever follows them left over (R33). Rests on the spec's own
inverse of the Decoder (R65, marked derived) and its opcode map (R70, decisions D1 to D3, D14). -/
def Obligations.DecodeOfEncodeIsTheInstruction : Prop :=
  ∀ i : Instr, i.wellFormed = true →
    decode (encode i) = .ok i ∧ ∀ rest : List Byte, decodeBytes (encodeBytes i ++ rest) = .ok (i, rest)

/-- A word that decodes decodes to a well-formed instruction, and encoding that gives the word back: each word has one
meaning and each instruction one word. Rests on R65 (marked derived). -/
def Obligations.EncodeOfDecodeIsTheWord : Prop :=
  ∀ (w : Word) (i : Instr), decode w = .ok i → i.wellFormed = true ∧ encode i = w

/-- The Decoder drops no bit of a classified word, and keeps only bits [6:0] of an Unknown one. Rests on the spec's own
inference R65. -/
def Obligations.DecoderDropsNoBitOfAClassifiedWord : Prop :=
  ∀ w : Word,
    ((decodeClass w).tag ≠ .Unknown → encodeDecoded (decodeClass w) = w) ∧
    ((decodeClass w).tag = .Unknown → encodeDecoded (decodeClass w) = w &&& 0x7F#32)

/-- The opcode map: a word decodes to an instruction of mnemonic `m` exactly when it matches a row of `m`, and rows are
disjoint: no word matches two. Rests on the spec's decisions D1, D2, D3, D14 where a mask is wider than the source's, and
on its inference that the patterns are disjoint (R70). -/
def Obligations.DecodeAgreesWithTheOpcodeMap : Prop :=
  (∀ (w : Word) (m : String),
    (∃ i, decode w = .ok i ∧ i.mnemonic = m) ↔ ∃ row ∈ opcodeTable, row.1 = m ∧ w &&& row.2.2 = row.2.1) ∧
  (∀ (w : Word) (j k : Nat) (hj : j < opcodeTable.length) (hk : k < opcodeTable.length),
    w &&& opcodeTable[j].2.2 = opcodeTable[j].2.1 → w &&& opcodeTable[k].2.2 = opcodeTable[k].2.1 → j = k)

/-- The illegal words are exactly those R72 lists, class by class. Rests on the spec's decisions D1, D2, D3, D14. -/
def Obligations.IllegalWordsAreExactlyTheListed : Prop :=
  ∀ w : Word,
    let op := w.toNat % 2 ^ 7
    let f3 := w.toNat / 2 ^ 12 % 2 ^ 3
    let f7 := w.toNat / 2 ^ 25
    (∃ e, decode w = .error e) ↔
      op ∉ [0x03, 0x13, 0x17, 0x23, 0x33, 0x37, 0x63, 0x67, 0x6F, 0x73] ∨
      (op = 0x33 ∧ (f3 = 0 ∨ f3 = 5) ∧ f7 ≠ 0x00 ∧ f7 ≠ 0x20) ∨
      (op = 0x33 ∧ f3 ≠ 0 ∧ f3 ≠ 5 ∧ f7 ≠ 0x00) ∨
      (op = 0x13 ∧ f3 = 1 ∧ f7 ≠ 0x00) ∨
      (op = 0x13 ∧ f3 = 5 ∧ f7 ≠ 0x00 ∧ f7 ≠ 0x20) ∨
      (op = 0x03 ∧ (f3 = 3 ∨ f3 = 6 ∨ f3 = 7)) ∨
      (op = 0x67 ∧ f3 ≠ 0) ∨
      (op = 0x73 ∧ w ≠ 0x00000073#32) ∨
      (op = 0x23 ∧ 3 ≤ f3) ∨
      (op = 0x63 ∧ (f3 = 2 ∨ f3 = 3))

/-- Words written out from the spec's encodings (the worked decodings of 30_encoding.md section 9 and the vectors of
95_test_vectors.md) decode to the instructions they stand for, one of each family, and three illegal ones to none. That
0x00100073 is illegal is the spec's decision D14. The names of the rejections are the model's choice (log entry 7): the
spec has InvalidEncoding alone. -/
def Obligations.WrittenOutWordsDecode : Prop :=
  decode 0x402081B3#32 = .ok (.sub 3 1 2) ∧
  decode 0x00500093#32 = .ok (.addi 1 0 5#32) ∧
  decode 0x40335293#32 = .ok (.srai 5 6 3#5) ∧
  decode 0xFFF44383#32 = .ok (.lbu 7 8 0xFFFFFFFF#32) ∧
  decode 0xFFD280E7#32 = .ok (.jalr 1 5 0xFFFFFFFD#32) ∧
  decode 0x80312023#32 = .ok (.sw 2 3 0xFFFFF800#32) ∧
  decode 0x01FF70E3#32 = .ok (.bgeu 30 31 0x00000800#32) ∧
  decode 0x12345517#32 = .ok (.auipc 10 0x12345000#32) ∧
  decode 0x800000EF#32 = .ok (.jal 1 0xFFF00000#32) ∧
  decode 0x00000073#32 = .ok .ecall ∧
  decode 0x00100073#32 = .error .system ∧
  decode 0x022081B3#32 = .error (.funct7 0#3 1#7) ∧
  decode 0x0FF0000F#32 = .error (.unknownClass 0x0F#7)

/-! ## The step -/

/-- When the machine is Running, its pc lies below IMAGE_LEN, the four bytes at the pc exist and hold the word `w`, and
`w` decodes to `i`, the step is exactly the meaning of `i`: the step adds nothing around it (the meaning itself moves the
pc). -/
def Obligations.StepRunsTheDecodedInstruction : Prop :=
  ∀ (s : State) (w : Word) (i : Instr), AboutToExecute s w → decode w = .ok i → step s = exec i s

/-- End of image: a Running machine whose pc is at or above IMAGE_LEN, in or out of the memory, ends normally and changes
nothing else. Rests on the spec's decision D13 (unsigned, before every fetch). -/
def Obligations.EndOfImageEndsTheRun : Prop :=
  ∀ s : State, s.status = .running → s.cfg.imageLen ≤ s.pc.toNat →
    step s = .next { s with status := .halted .endOfImage }

/-- A fetch that does not lie inside the memory ends in MemFault(fetch, pc, 4), with nothing else changed. Rests on the
spec's decision D5. -/
def Obligations.FetchOutOfRangeFaults : Prop :=
  ∀ s : State, s.status = .running → s.pc.toNat < s.cfg.imageLen → s.cfg.memSize < s.pc.toNat + 4 →
    step s = .next { s with status := .faulted (.memFault .fetch s.pc .word) }

/-- A word that matches no row of the opcode map ends in InvalidEncoding(pc, word), with nothing else changed and no
register or address looked at. Rests on the spec's decisions D4 and D17. -/
def Obligations.IllegalWordStopsTheRun : Prop :=
  ∀ (s : State) (w : Word), AboutToExecute s w →
    (∀ row ∈ opcodeTable, w &&& row.2.2 ≠ row.2.1) →
    step s = .next { s with status := .faulted (.invalidEncoding s.pc w) }

/-- A step exists exactly from the Running states: from each of them the machine answers a next state, whatever the rest
of the state is, and from a Halted or Faulted state it answers that there is no step. No step is ever refused. Rests on
R90, R91 and the spec's decision D4; that "no step" is the host's outcome `fault` is the model's choice (log entry 5). -/
def Obligations.StepExistsExactlyWhenRunning : Prop :=
  ∀ s : State,
    (s.status = .running → ∃ t, step s = .next t) ∧
    (∀ reason, s.status = .halted reason → step s = .fault (.afterHalt reason)) ∧
    (∀ reason, s.status = .faulted reason → step s = .fault (.afterFault reason))

/-! ## The instructions: encoding, result, completion and frame

`RegisterEffect`, `PcEffect` and `StoreEffect` (Sys2Proof/Safety.lean) say the result and that everything else is
unchanged: other registers, every byte of memory, the status and the launch parameters. Register 0 as destination is
covered: then no register changes. Which opcode value is which I-class family, and which of 0x37 and 0x17 is LUI, is
the spec's general knowledge (R55; G1 of 93_implementation_defined.md). -/

/-- ADD and SUB (R112, R113). -/
def Obligations.AddAndSubEncodingAndResult : Prop :=
  (∀ w : Word, w &&& 0xFE00707F#32 = 0x00000033#32 → decode w = .ok (.add (rdOf w) (rs1Of w) (rs2Of w))) ∧
  (∀ w : Word, w &&& 0xFE00707F#32 = 0x40000033#32 → decode w = .ok (.sub (rdOf w) (rs1Of w) (rs2Of w))) ∧
  ∀ (rd rs1 rs2 : Reg) (s : State),
    (∃ t, Sys2Proof.Machine.exec (.add rd rs1 rs2) s = .next t ∧
      RegisterEffect s t rd (BitVec.ofNat 32 ((s.reg rs1).toNat + (s.reg rs2).toNat)) (s.pc + 4#32)) ∧
    (∃ t, Sys2Proof.Machine.exec (.sub rd rs1 rs2) s = .next t ∧
      RegisterEffect s t rd (BitVec.ofInt 32 ((s.reg rs1).toInt - (s.reg rs2).toInt)) (s.pc + 4#32))

/-- XOR, OR, AND: each bit position independently (R117, R120, R121). That a word of the pattern is the instruction is
stated; that other funct7 values are illegal is the spec's decision D1 and is not. -/
def Obligations.XorOrAndEncodingAndResult : Prop :=
  (∀ w : Word, w &&& 0xFE00707F#32 = 0x00004033#32 → decode w = .ok (.xor (rdOf w) (rs1Of w) (rs2Of w))) ∧
  (∀ w : Word, w &&& 0xFE00707F#32 = 0x00006033#32 → decode w = .ok (.or (rdOf w) (rs1Of w) (rs2Of w))) ∧
  (∀ w : Word, w &&& 0xFE00707F#32 = 0x00007033#32 → decode w = .ok (.and (rdOf w) (rs1Of w) (rs2Of w))) ∧
  ∀ (rd rs1 rs2 : Reg) (s : State),
    (∃ t v, Sys2Proof.Machine.exec (.xor rd rs1 rs2) s = .next t ∧ RegisterEffect s t rd v (s.pc + 4#32) ∧
      ∀ k : Nat, v.getLsbD k = ((s.reg rs1).getLsbD k ^^ (s.reg rs2).getLsbD k)) ∧
    (∃ t v, Sys2Proof.Machine.exec (.or rd rs1 rs2) s = .next t ∧ RegisterEffect s t rd v (s.pc + 4#32) ∧
      ∀ k : Nat, v.getLsbD k = ((s.reg rs1).getLsbD k || (s.reg rs2).getLsbD k)) ∧
    (∃ t v, Sys2Proof.Machine.exec (.and rd rs1 rs2) s = .next t ∧ RegisterEffect s t rd v (s.pc + 4#32) ∧
      ∀ k : Nat, v.getLsbD k = ((s.reg rs1).getLsbD k && (s.reg rs2).getLsbD k))

/-- SLL, SRL, SRA: the amount is the low five bits of x[rs2]; SRA is the floor of the signed value divided by the power
of two (R114, R118, R119). For SLL, that other funct7 values are illegal is the spec's decision D1 and is not stated. -/
def Obligations.RegisterShiftsEncodingAndResult : Prop :=
  (∀ w : Word, w &&& 0xFE00707F#32 = 0x00001033#32 → decode w = .ok (.sll (rdOf w) (rs1Of w) (rs2Of w))) ∧
  (∀ w : Word, w &&& 0xFE00707F#32 = 0x00005033#32 → decode w = .ok (.srl (rdOf w) (rs1Of w) (rs2Of w))) ∧
  (∀ w : Word, w &&& 0xFE00707F#32 = 0x40005033#32 → decode w = .ok (.sra (rdOf w) (rs1Of w) (rs2Of w))) ∧
  ∀ (rd rs1 rs2 : Reg) (s : State),
    (∃ t, Sys2Proof.Machine.exec (.sll rd rs1 rs2) s = .next t ∧
      RegisterEffect s t rd (BitVec.ofNat 32 ((s.reg rs1).toNat * 2 ^ ((s.reg rs2).toNat % 32))) (s.pc + 4#32)) ∧
    (∃ t, Sys2Proof.Machine.exec (.srl rd rs1 rs2) s = .next t ∧
      RegisterEffect s t rd (BitVec.ofNat 32 ((s.reg rs1).toNat / 2 ^ ((s.reg rs2).toNat % 32))) (s.pc + 4#32)) ∧
    (∃ t, Sys2Proof.Machine.exec (.sra rd rs1 rs2) s = .next t ∧
      RegisterEffect s t rd (BitVec.ofInt 32 ((s.reg rs1).toInt / 2 ^ ((s.reg rs2).toNat % 32))) (s.pc + 4#32))

/-- SLT and SLTU: 1 or 0 by the signed and the unsigned order (R115, R116). That other funct7 values are illegal is the
spec's decision D1 and is not stated. -/
def Obligations.RegisterComparisonsEncodingAndResult : Prop :=
  (∀ w : Word, w &&& 0xFE00707F#32 = 0x00002033#32 → decode w = .ok (.slt (rdOf w) (rs1Of w) (rs2Of w))) ∧
  (∀ w : Word, w &&& 0xFE00707F#32 = 0x00003033#32 → decode w = .ok (.sltu (rdOf w) (rs1Of w) (rs2Of w))) ∧
  ∀ (rd rs1 rs2 : Reg) (s : State),
    (∃ t, Sys2Proof.Machine.exec (.slt rd rs1 rs2) s = .next t ∧
      RegisterEffect s t rd (if (s.reg rs1).toInt < (s.reg rs2).toInt then 1#32 else 0#32) (s.pc + 4#32)) ∧
    (∃ t, Sys2Proof.Machine.exec (.sltu rd rs1 rs2) s = .next t ∧
      RegisterEffect s t rd (if (s.reg rs1).toNat < (s.reg rs2).toNat then 1#32 else 0#32) (s.pc + 4#32))

/-- ADDI, XORI, ORI, ANDI: the second operand is the immediate, which every word of the pattern sign-extends from its bits
[31:20] (R132, R136, R139, R140). -/
def Obligations.ImmediateArithmeticEncodingAndResult : Prop :=
  (∀ w : Word, w &&& 0x0000707F#32 = 0x00000013#32 →
    decode w = .ok (.addi (rdOf w) (rs1Of w) ((w.extractLsb' 20 12).signExtend 32))) ∧
  (∀ w : Word, w &&& 0x0000707F#32 = 0x00004013#32 →
    decode w = .ok (.xori (rdOf w) (rs1Of w) ((w.extractLsb' 20 12).signExtend 32))) ∧
  (∀ w : Word, w &&& 0x0000707F#32 = 0x00006013#32 →
    decode w = .ok (.ori (rdOf w) (rs1Of w) ((w.extractLsb' 20 12).signExtend 32))) ∧
  (∀ w : Word, w &&& 0x0000707F#32 = 0x00007013#32 →
    decode w = .ok (.andi (rdOf w) (rs1Of w) ((w.extractLsb' 20 12).signExtend 32))) ∧
  ∀ (rd rs1 : Reg) (imm : Word) (s : State),
    (∃ t, Sys2Proof.Machine.exec (.addi rd rs1 imm) s = .next t ∧
      RegisterEffect s t rd (BitVec.ofNat 32 ((s.reg rs1).toNat + imm.toNat)) (s.pc + 4#32)) ∧
    (∃ t v, Sys2Proof.Machine.exec (.xori rd rs1 imm) s = .next t ∧ RegisterEffect s t rd v (s.pc + 4#32) ∧
      ∀ k : Nat, v.getLsbD k = ((s.reg rs1).getLsbD k ^^ imm.getLsbD k)) ∧
    (∃ t v, Sys2Proof.Machine.exec (.ori rd rs1 imm) s = .next t ∧ RegisterEffect s t rd v (s.pc + 4#32) ∧
      ∀ k : Nat, v.getLsbD k = ((s.reg rs1).getLsbD k || imm.getLsbD k)) ∧
    (∃ t v, Sys2Proof.Machine.exec (.andi rd rs1 imm) s = .next t ∧ RegisterEffect s t rd v (s.pc + 4#32) ∧
      ∀ k : Nat, v.getLsbD k = ((s.reg rs1).getLsbD k && imm.getLsbD k))

/-- SLTI and SLTIU: the sign-extended immediate is read as signed by the one and as unsigned by the other (R134, R135). -/
def Obligations.ImmediateComparisonsEncodingAndResult : Prop :=
  (∀ w : Word, w &&& 0x0000707F#32 = 0x00002013#32 →
    decode w = .ok (.slti (rdOf w) (rs1Of w) ((w.extractLsb' 20 12).signExtend 32))) ∧
  (∀ w : Word, w &&& 0x0000707F#32 = 0x00003013#32 →
    decode w = .ok (.sltiu (rdOf w) (rs1Of w) ((w.extractLsb' 20 12).signExtend 32))) ∧
  ∀ (rd rs1 : Reg) (imm : Word) (s : State),
    (∃ t, Sys2Proof.Machine.exec (.slti rd rs1 imm) s = .next t ∧
      RegisterEffect s t rd (if (s.reg rs1).toInt < imm.toInt then 1#32 else 0#32) (s.pc + 4#32)) ∧
    (∃ t, Sys2Proof.Machine.exec (.sltiu rd rs1 imm) s = .next t ∧
      RegisterEffect s t rd (if (s.reg rs1).toNat < imm.toNat then 1#32 else 0#32) (s.pc + 4#32))

/-- SLLI, SRLI and SRAI (R133, R137, R138): encoding and result, with the illegal upper bits of funct3 101. That SLLI
words with other upper bits are illegal is the spec's decision D2, not part of what is stated here:
IllegalWordsAreExactlyTheListed says it. The amount is the 5-bit field in bits [24:20]; the decoded immediate
of an SRAI word is 0x400 more than it. -/
def Obligations.ImmediateShiftsEncodingAndResult : Prop :=
  (∀ w : Word, w &&& 0xFE00707F#32 = 0x00001013#32 →
    decode w = .ok (.slli (rdOf w) (rs1Of w) (w.extractLsb' 20 5))) ∧
  (∀ w : Word, w &&& 0xFE00707F#32 = 0x00005013#32 →
    decode w = .ok (.srli (rdOf w) (rs1Of w) (w.extractLsb' 20 5))) ∧
  (∀ w : Word, w &&& 0xFE00707F#32 = 0x40005013#32 →
    decode w = .ok (.srai (rdOf w) (rs1Of w) (w.extractLsb' 20 5)) ∧
      immIOf w = 0x00000400#32 + (w.extractLsb' 20 5).setWidth 32) ∧
  (∀ w : Word, w &&& 0x0000707F#32 = 0x00005013#32 → w.toNat / 2 ^ 25 ≠ 0x00 → w.toNat / 2 ^ 25 ≠ 0x20 →
    ∃ e, decode w = .error e) ∧
  ∀ (rd rs1 : Reg) (shamt : BitVec 5) (s : State),
    (∃ t, Sys2Proof.Machine.exec (.slli rd rs1 shamt) s = .next t ∧
      RegisterEffect s t rd (BitVec.ofNat 32 ((s.reg rs1).toNat * 2 ^ shamt.toNat)) (s.pc + 4#32)) ∧
    (∃ t, Sys2Proof.Machine.exec (.srli rd rs1 shamt) s = .next t ∧
      RegisterEffect s t rd (BitVec.ofNat 32 ((s.reg rs1).toNat / 2 ^ shamt.toNat)) (s.pc + 4#32)) ∧
    (∃ t, Sys2Proof.Machine.exec (.srai rd rs1 shamt) s = .next t ∧
      RegisterEffect s t rd (BitVec.ofInt 32 ((s.reg rs1).toInt / 2 ^ shamt.toNat)) (s.pc + 4#32))

/-- LUI and AUIPC (R180, R181): the immediate is the word's upper 20 bits in place, and AUIPC adds the address of the
AUIPC itself. -/
def Obligations.UpperImmediateEncodingAndResult : Prop :=
  (∀ w : Word, w &&& 0x0000007F#32 = 0x00000037#32 → decode w = .ok (.lui (rdOf w) (w &&& 0xFFFFF000#32))) ∧
  (∀ w : Word, w &&& 0x0000007F#32 = 0x00000017#32 → decode w = .ok (.auipc (rdOf w) (w &&& 0xFFFFF000#32))) ∧
  ∀ (rd : Reg) (imm : Word) (s : State),
    (∃ t, Sys2Proof.Machine.exec (.lui rd imm) s = .next t ∧ RegisterEffect s t rd imm (s.pc + 4#32)) ∧
    (∃ t, Sys2Proof.Machine.exec (.auipc rd imm) s = .next t ∧
      RegisterEffect s t rd (BitVec.ofNat 32 (s.pc.toNat + imm.toNat)) (s.pc + 4#32))

/-- JALR (R165): the target is the wrapped sum with bit 0 forced to 0, from the old value of x[rs1] even when rd = rs1;
the link is the pc of the jump plus 4; no target is refused. That other funct3 values are illegal is the spec's decision
D3 and is not stated. -/
def Obligations.JalrEncodingAndResult : Prop :=
  (∀ w : Word, w &&& 0x0000707F#32 = 0x00000067#32 →
    decode w = .ok (.jalr (rdOf w) (rs1Of w) ((w.extractLsb' 20 12).signExtend 32))) ∧
  ∀ (rd rs1 : Reg) (imm : Word) (s : State),
    ∃ t, Sys2Proof.Machine.exec (.jalr rd rs1 imm) s = .next t ∧
      RegisterEffect s t rd (s.pc + 4#32)
        (BitVec.ofNat 32 (((s.reg rs1).toNat + imm.toNat) % 2 ^ 32 / 2 * 2))

/-- JAL (R200): link and target are both taken from the pc of the JAL; no target is refused. -/
def Obligations.JalEncodingAndResult : Prop :=
  (∀ w : Word, w &&& 0x0000007F#32 = 0x0000006F#32 →
    decode w = .ok (.jal (rdOf w)
      ((w.extractLsb' 31 1 ++ w.extractLsb' 12 8 ++ w.extractLsb' 20 1 ++ w.extractLsb' 21 10 ++ 0#1).signExtend 32))) ∧
  ∀ (rd : Reg) (imm : Word) (s : State),
    ∃ t, Sys2Proof.Machine.exec (.jal rd imm) s = .next t ∧
      RegisterEffect s t rd (s.pc + 4#32) (BitVec.ofNat 32 (s.pc.toNat + imm.toNat))

/-- BEQ and BNE (R187, R188): taken to pc + imm, not taken to pc + 4, and nothing else changes. -/
def Obligations.EqualityBranchesEncodingAndResult : Prop :=
  (∀ w : Word, w &&& 0x0000707F#32 = 0x00000063#32 → decode w = .ok (.beq (rs1Of w) (rs2Of w) (immBOf w))) ∧
  (∀ w : Word, w &&& 0x0000707F#32 = 0x00001063#32 → decode w = .ok (.bne (rs1Of w) (rs2Of w) (immBOf w))) ∧
  ∀ (rs1 rs2 : Reg) (imm : Word) (s : State),
    (∃ t, Sys2Proof.Machine.exec (.beq rs1 rs2 imm) s = .next t ∧
      PcEffect s t (if s.reg rs1 = s.reg rs2 then s.pc + imm else s.pc + 4#32)) ∧
    (∃ t, Sys2Proof.Machine.exec (.bne rs1 rs2 imm) s = .next t ∧
      PcEffect s t (if s.reg rs1 ≠ s.reg rs2 then s.pc + imm else s.pc + 4#32))

/-- BLT and BGE by the signed order (R189, R190). -/
def Obligations.SignedBranchesEncodingAndResult : Prop :=
  (∀ w : Word, w &&& 0x0000707F#32 = 0x00004063#32 → decode w = .ok (.blt (rs1Of w) (rs2Of w) (immBOf w))) ∧
  (∀ w : Word, w &&& 0x0000707F#32 = 0x00005063#32 → decode w = .ok (.bge (rs1Of w) (rs2Of w) (immBOf w))) ∧
  ∀ (rs1 rs2 : Reg) (imm : Word) (s : State),
    (∃ t, Sys2Proof.Machine.exec (.blt rs1 rs2 imm) s = .next t ∧
      PcEffect s t (if (s.reg rs1).toInt < (s.reg rs2).toInt then s.pc + imm else s.pc + 4#32)) ∧
    (∃ t, Sys2Proof.Machine.exec (.bge rs1 rs2 imm) s = .next t ∧
      PcEffect s t (if (s.reg rs2).toInt ≤ (s.reg rs1).toInt then s.pc + imm else s.pc + 4#32))

/-- BLTU and BGEU by the unsigned order (R191, R192). -/
def Obligations.UnsignedBranchesEncodingAndResult : Prop :=
  (∀ w : Word, w &&& 0x0000707F#32 = 0x00006063#32 → decode w = .ok (.bltu (rs1Of w) (rs2Of w) (immBOf w))) ∧
  (∀ w : Word, w &&& 0x0000707F#32 = 0x00007063#32 → decode w = .ok (.bgeu (rs1Of w) (rs2Of w) (immBOf w))) ∧
  ∀ (rs1 rs2 : Reg) (imm : Word) (s : State),
    (∃ t, Sys2Proof.Machine.exec (.bltu rs1 rs2 imm) s = .next t ∧
      PcEffect s t (if (s.reg rs1).toNat < (s.reg rs2).toNat then s.pc + imm else s.pc + 4#32)) ∧
    (∃ t, Sys2Proof.Machine.exec (.bgeu rs1 rs2 imm) s = .next t ∧
      PcEffect s t (if (s.reg rs2).toNat ≤ (s.reg rs1).toNat then s.pc + imm else s.pc + 4#32))

/-- ECALL (R205, R220): the word 0x00000073 is ECALL, and its effect is the status Halted(Ecall) and nothing else: every
register, the pc (which stays at the ECALL), the memory and the parameters are as they were. A step acts so when that word
stands at the pc below IMAGE_LEN, and the end is a normal one: exit code 0. -/
def Obligations.EcallHaltsAndChangesNothingElse : Prop :=
  decode 0x00000073#32 = .ok .ecall ∧
  (∀ s : State, ∃ t, Sys2Proof.Machine.exec .ecall s = .next t ∧ t.status = .halted .ecall ∧
    t.regs = s.regs ∧ t.pc = s.pc ∧ t.mem = s.mem ∧ t.cfg = s.cfg) ∧
  (∀ s : State, AboutToExecute s 0x00000073#32 → step s = .next { s with status := .halted .ecall }) ∧
  Status.exitCode (.halted .ecall) = some 0

/-- The five loads (43_load.md): encoding, and for every effective address whose bytes all exist, at any alignment, the
value and its extension, the frame and the completion. The alignment freedom is the spec's decision D7 and that the read
is made with rd = 0 is D6; the funct3 values are its general knowledge G2. -/
def Obligations.LoadsEncodingAndResult : Prop :=
  (∀ w : Word,
    (w &&& 0x0000707F#32 = 0x00000003#32 → decode w = .ok (.lb (rdOf w) (rs1Of w) (immIOf w))) ∧
    (w &&& 0x0000707F#32 = 0x00001003#32 → decode w = .ok (.lh (rdOf w) (rs1Of w) (immIOf w))) ∧
    (w &&& 0x0000707F#32 = 0x00002003#32 → decode w = .ok (.lw (rdOf w) (rs1Of w) (immIOf w))) ∧
    (w &&& 0x0000707F#32 = 0x00004003#32 → decode w = .ok (.lbu (rdOf w) (rs1Of w) (immIOf w))) ∧
    (w &&& 0x0000707F#32 = 0x00005003#32 → decode w = .ok (.lhu (rdOf w) (rs1Of w) (immIOf w)))) ∧
  ∀ (rd rs1 : Reg) (imm : Word) (s : State),
    let ea := (s.reg rs1 + imm).toNat
    let b (k : Nat) := (s.mem.byteAt (ea + k)).toNat
    let half := b 0 + 2 ^ 8 * b 1
    (ea + 1 ≤ s.cfg.memSize → ∃ t, Sys2Proof.Machine.exec (.lb rd rs1 imm) s = .next t ∧
      RegisterEffect s t rd (BitVec.ofNat 32 (if b 0 < 0x80 then b 0 else b 0 + 0xFFFFFF00)) (s.pc + 4#32)) ∧
    (ea + 2 ≤ s.cfg.memSize → ∃ t, Sys2Proof.Machine.exec (.lh rd rs1 imm) s = .next t ∧
      RegisterEffect s t rd (BitVec.ofNat 32 (if half < 0x8000 then half else half + 0xFFFF0000)) (s.pc + 4#32)) ∧
    (ea + 4 ≤ s.cfg.memSize → ∃ t, Sys2Proof.Machine.exec (.lw rd rs1 imm) s = .next t ∧
      RegisterEffect s t rd (BitVec.ofNat 32 (half + 2 ^ 16 * b 2 + 2 ^ 24 * b 3)) (s.pc + 4#32)) ∧
    (ea + 1 ≤ s.cfg.memSize → ∃ t, Sys2Proof.Machine.exec (.lbu rd rs1 imm) s = .next t ∧
      RegisterEffect s t rd (BitVec.ofNat 32 (b 0)) (s.pc + 4#32)) ∧
    (ea + 2 ≤ s.cfg.memSize → ∃ t, Sys2Proof.Machine.exec (.lhu rd rs1 imm) s = .next t ∧
      RegisterEffect s t rd (BitVec.ofNat 32 half) (s.pc + 4#32))

/-- A load one of whose bytes does not exist ends in MemFault(load, ea, n), with rd = 0 too, and changes nothing else.
Rests on the spec's decisions D5 and D6. -/
def Obligations.LoadsOutOfRangeFault : Prop :=
  ∀ (rd rs1 : Reg) (imm : Word) (s : State),
    let ea := s.reg rs1 + imm
    let faults (w : Width) : Result := .next { s with status := .faulted (.memFault .load ea w) }
    (s.cfg.memSize < ea.toNat + 1 → Sys2Proof.Machine.exec (.lb rd rs1 imm) s = faults .byte) ∧
    (s.cfg.memSize < ea.toNat + 2 → Sys2Proof.Machine.exec (.lh rd rs1 imm) s = faults .half) ∧
    (s.cfg.memSize < ea.toNat + 4 → Sys2Proof.Machine.exec (.lw rd rs1 imm) s = faults .word) ∧
    (s.cfg.memSize < ea.toNat + 1 → Sys2Proof.Machine.exec (.lbu rd rs1 imm) s = faults .byte) ∧
    (s.cfg.memSize < ea.toNat + 2 → Sys2Proof.Machine.exec (.lhu rd rs1 imm) s = faults .half)

/-- The three stores (45_store.md): encoding, and for every effective address whose bytes all exist, at any alignment,
exactly the low 1, 2 or 4 bytes of x[rs2] land at that address and up, least significant first; every other byte and
every register is unchanged. The alignment freedom is the spec's decision D7; the funct3 values are its general
knowledge G2. -/
def Obligations.StoresEncodingAndResult : Prop :=
  (∀ w : Word,
    (w &&& 0x0000707F#32 = 0x00000023#32 → decode w = .ok (.sb (rs1Of w) (rs2Of w) (immSOf w))) ∧
    (w &&& 0x0000707F#32 = 0x00001023#32 → decode w = .ok (.sh (rs1Of w) (rs2Of w) (immSOf w))) ∧
    (w &&& 0x0000707F#32 = 0x00002023#32 → decode w = .ok (.sw (rs1Of w) (rs2Of w) (immSOf w)))) ∧
  ∀ (rs1 rs2 : Reg) (imm : Word) (s : State),
    let ea := (s.effectiveAddress rs1 imm).toNat
    ea = ((s.reg rs1).toNat + imm.toNat) % 2 ^ 32 ∧
    (ea + 1 ≤ s.cfg.memSize → ∃ t, Sys2Proof.Machine.exec (.sb rs1 rs2 imm) s = .next t ∧
      StoreEffect s t ea 1 (s.reg rs2)) ∧
    (ea + 2 ≤ s.cfg.memSize → ∃ t, Sys2Proof.Machine.exec (.sh rs1 rs2 imm) s = .next t ∧
      StoreEffect s t ea 2 (s.reg rs2)) ∧
    (ea + 4 ≤ s.cfg.memSize → ∃ t, Sys2Proof.Machine.exec (.sw rs1 rs2 imm) s = .next t ∧
      StoreEffect s t ea 4 (s.reg rs2))

/-- A store one of whose bytes does not exist ends in MemFault(store, ea, n) and writes none of its bytes. Rests on the
spec's decision D5. -/
def Obligations.StoresOutOfRangeFault : Prop :=
  ∀ (rs1 rs2 : Reg) (imm : Word) (s : State),
    let ea := s.reg rs1 + imm
    let faults (w : Width) : Result := .next { s with status := .faulted (.memFault .store ea w) }
    (s.cfg.memSize < ea.toNat + 1 → Sys2Proof.Machine.exec (.sb rs1 rs2 imm) s = faults .byte) ∧
    (s.cfg.memSize < ea.toNat + 2 → Sys2Proof.Machine.exec (.sh rs1 rs2 imm) s = faults .half) ∧
    (s.cfg.memSize < ea.toNat + 4 → Sys2Proof.Machine.exec (.sw rs1 rs2 imm) s = faults .word)

/-! ## Registers and memory -/

/-- R11: register 0 reads 0 in every state; register i, 1 to 31, reads its slot, and after a write the value last
written, whatever is written to the others. -/
def Obligations.RegisterReadsItsLastWrittenValue : Prop :=
  (∀ s : State, s.reg 0 = 0#32) ∧
  (∀ (s : State) (r : Reg), s.reg r = if r = 0 then 0#32 else s.regs[r]) ∧
  (∀ (s : State) (r q : Reg) (v : Word), (s.setReg r v).reg q = if q = r ∧ q ≠ 0 then v else s.reg q)

/-- Register 0 is hardwired for every instruction (10_state.md R12): a write to it does nothing, no instruction changes
register 0 or its slot, and the same instruction with rd = x0 leaves every register alone and does everything else it
does: the same pc, memory, status and fault checks. That a load with rd = x0 still reads and can fault is the spec's
decision D6. -/
def Obligations.RegisterZeroIsHardwired : Prop :=
  (∀ (s : State) (v : Word), s.setReg 0 v = s) ∧
  ∀ (i : Instr) (s t : State), exec i s = .next t →
    t.reg 0 = 0#32 ∧ t.regs[0] = s.regs[0] ∧
      ∃ u, exec i.toRegisterZero s = .next u ∧ u.regs = s.regs ∧ u.pc = t.pc ∧ u.mem = t.mem ∧ u.status = t.status ∧
        u.cfg = t.cfg

/-- MemRead returns the sum of mem[addr + i] · 2^(8i), at any alignment, or MemFault when addr + n exceeds MEM_SIZE, the
sum not wrapping (20_memory.md section 3). The fault is the spec's decision D5, the alignment freedom D7. -/
def Obligations.MemReadIsTheLittleEndianSum : Prop :=
  ∀ (s : State) (kind : AccessKind) (addr : Word) (w : Width),
    (addr.toNat + w.bytes ≤ s.cfg.memSize → ∃ v, s.memRead kind addr w = .ok v ∧
      v.toNat = ((List.range w.bytes).map fun k => (s.mem.byteAt (addr.toNat + k)).toNat * 2 ^ (8 * k)).sum) ∧
    (s.cfg.memSize < addr.toNat + w.bytes → s.memRead kind addr w = .error (.memFault kind addr w))

/-- MemWrite changes exactly the n bytes at addr, to the low n bytes of the value, or raises MemFault (20_memory.md
section 3). The fault is the spec's decision D5. -/
def Obligations.MemWriteChangesExactlyItsBytes : Prop :=
  ∀ (s : State) (addr : Word) (w : Width) (v : Word),
    (addr.toNat + w.bytes ≤ s.cfg.memSize → ∃ t, s.memWrite addr w v = .ok t ∧
      t.regs = s.regs ∧ t.pc = s.pc ∧ t.status = s.status ∧ t.cfg = s.cfg ∧
      ∀ a : Nat, t.mem.byteAt a =
        if addr.toNat ≤ a ∧ a < addr.toNat + w.bytes then BitVec.ofNat 8 (v.toNat / 2 ^ (8 * (a - addr.toNat)))
        else s.mem.byteAt a) ∧
    (s.cfg.memSize < addr.toNat + w.bytes → s.memWrite addr w v = .error (.memFault .store addr w))

/-- Store then load at one address, for each width: SW then LW returns the value unchanged, SH then LHU and SB then LBU
its low 16 and 8 bits. The source's property is the SW and LW case (95_test_vectors.md S6); the others follow from
20_memory.md R34, R35. -/
def Obligations.StoreThenLoadReturnsTheStoredValue : Prop :=
  ∀ (s t u : State) (rs1 rs2 rd : Reg) (imm : Word), rd ≠ 0 →
    ((s.reg rs1 + imm).toNat + 4 ≤ s.cfg.memSize →
      exec (.sw rs1 rs2 imm) s = .next t → exec (.lw rd rs1 imm) t = .next u → u.reg rd = s.reg rs2) ∧
    ((s.reg rs1 + imm).toNat + 2 ≤ s.cfg.memSize →
      exec (.sh rs1 rs2 imm) s = .next t → exec (.lhu rd rs1 imm) t = .next u → u.reg rd = s.reg rs2 &&& 0xFFFF#32) ∧
    ((s.reg rs1 + imm).toNat + 1 ≤ s.cfg.memSize →
      exec (.sb rs1 rs2 imm) s = .next t → exec (.lbu rd rs1 imm) t = .next u → u.reg rd = s.reg rs2 &&& 0xFF#32)

/-- Self-modifying code: a SW to the address of the next instruction is what the next step executes, with nothing in
between. Rests on the spec's inference R44. -/
def Obligations.NextFetchSeesTheStoredWord : Prop :=
  ∀ (s t : State) (rs1 rs2 : Reg) (imm : Word), s.status = .running →
    s.reg rs1 + imm = s.pc + 4#32 → (s.pc + 4#32).toNat < s.cfg.imageLen →
    (s.pc + 4#32).toNat + 4 ≤ s.cfg.memSize →
    exec (.sw rs1 rs2 imm) s = .next t → AboutToExecute t (s.reg rs2)

/-! ## The whole machine -/

/-- Every step keeps the legal shape of the state: legal parameters, a canonical memory inside MEM_SIZE, slot 0 at zero
and an even pc. The even pc is the spec's inference R17; the canonical form is the model's (log entry 3). -/
def Obligations.StepKeepsTheStateWellFormed : Prop :=
  ∀ s t : State, s.wf = true → step s = .next t → t.wf = true

/-- The reset state has that shape. The parameters it has there (MEM_SIZE the reference value, IMAGE_LEN 0) and the
canonical memory with nothing listed are the model's choice (log entries 1, 2, 3); the pc 0 is the spec's decision D10. -/
def Obligations.ResetStateIsWellFormed : Prop := State.reset.wf = true

/-- What reset leaves: x0 to x31 and the pc 0 and status Running (the spec's decisions D9 and D10); MEM_SIZE the
reference value, no image, and bytes that read 0 are the model's choice (log entries 1, 2, 3). Reset is the launch of an
empty image on the reference machine with an all-zero MEM_INIT. -/
def Obligations.ResetIsTheLaunchOfAnEmptyImage : Prop :=
  (∀ r : Reg, State.reset.reg r = 0#32) ∧ State.reset.pc = 0#32 ∧ State.reset.status = .running ∧
  (∀ a : Nat, State.reset.mem.byteAt a = 0x00#8) ∧
  State.reset.cfg.memSize = 0x00100000 ∧ State.reset.cfg.imageLen = 0 ∧
  State.launch 0x00100000 [] (fun _ => 0x00#8) = some State.reset

/-- The launch: for every legal MEM_SIZE, every image that fits and every MEM_INIT there is a first state; its registers
and pc are 0 (the spec's decisions D9, D10), its status Running, byte a is the image's byte a below IMAGE_LEN and MEM_INIT
at and above it (D12), and it has the legal shape. The canonical form of the memory in that shape is the model's choice
(log entry 3). -/
def Obligations.LaunchPlacesTheImage : Prop :=
  ∀ (memSize : Nat) (image : List Byte) (memInit : Nat → Byte),
    1 ≤ memSize → memSize ≤ 2 ^ 32 → image.length ≤ memSize →
    ∃ s, State.launch memSize image memInit = some s ∧ s.wf = true ∧ (∀ r : Reg, s.reg r = 0#32) ∧ s.pc = 0#32 ∧
      s.status = .running ∧ s.cfg.memSize = memSize ∧ s.cfg.imageLen = image.length ∧
      (∀ (a : Nat) (h : a < image.length), s.mem.byteAt a = image[a]) ∧
      (∀ a : Nat, image.length ≤ a → a < memSize → s.mem.byteAt a = memInit a)

/-- The loader refuses an image longer than the memory, and a memory size outside 1 to 2^32 is no launch. -/
def Obligations.LaunchRefusesWhatDoesNotFit : Prop :=
  ∀ (memSize : Nat) (image : List Byte) (memInit : Nat → Byte),
    memSize < image.length ∨ memSize < 1 ∨ 2 ^ 32 < memSize → State.launch memSize image memInit = none

/-- Every state of every run of every image that can be launched has the legal shape, whatever MEM_SIZE and MEM_INIT are.
The legal parameters are those of R6, the memory inside MEM_SIZE is R23 and R30, slot 0 is R12. Rests on the spec's
decisions D9 and D10 for the first state and on its inference R17; the canonical form of the memory is the model's choice
(log entry 3). -/
def Obligations.EveryRunStaysWellFormed : Prop :=
  ∀ (memSize : Nat) (image : List Byte) (memInit : Nat → Byte) (s t : State),
    State.launch memSize image memInit = some s → Reaches s t → t.wf = true

/-- The four ends of a run and their exact causes: after a step the machine is Running, or it is Halted(Ecall) and the
word was 0x00000073, or Halted(EndOfImage) and the pc was at or above IMAGE_LEN, or Faulted(InvalidEncoding) with the pc
and an illegal word, or Faulted(MemFault) with an access that does not lie inside the memory: the fetch at the pc, or the
effective address of the load or store that stood there. Rests on the spec's decisions D4, D5, D13, D14 and D17. -/
def Obligations.RunEndsOnlyInTheFourWays : Prop :=
  ∀ s t : State, step s = .next t →
    match t.status with
    | .running => True
    | .halted .ecall => AboutToExecute s 0x00000073#32
    | .halted .endOfImage => s.cfg.imageLen ≤ s.pc.toNat
    | .faulted (.invalidEncoding p w) =>
      p = s.pc ∧ AboutToExecute s w ∧ ∀ row ∈ opcodeTable, w &&& row.2.2 ≠ row.2.1
    | .faulted (.memFault kind addr n) =>
      s.cfg.memSize < addr.toNat + n.bytes ∧
        match kind with
        | .fetch => addr = s.pc ∧ n = .word
        | .load => ∃ w rd rs1 imm, AboutToExecute s w ∧ addr = s.reg rs1 + imm ∧
            ((n = .byte ∧ (decode w = .ok (.lb rd rs1 imm) ∨ decode w = .ok (.lbu rd rs1 imm))) ∨
              (n = .half ∧ (decode w = .ok (.lh rd rs1 imm) ∨ decode w = .ok (.lhu rd rs1 imm))) ∨
              (n = .word ∧ decode w = .ok (.lw rd rs1 imm)))
        | .store => ∃ w rs1 rs2 imm, AboutToExecute s w ∧ addr = s.reg rs1 + imm ∧
            ((n = .byte ∧ decode w = .ok (.sb rs1 rs2 imm)) ∨ (n = .half ∧ decode w = .ok (.sh rs1 rs2 imm)) ∨
              (n = .word ∧ decode w = .ok (.sw rs1 rs2 imm)))

/-- Nothing bounds the number of steps: from a state about to execute `JAL x0, 0` the step gives the same state again, so
the run never leaves it, never ends and never faults (R100, and the corner cases of R200). -/
def Obligations.JumpToItselfRunsForever : Prop :=
  ∀ s : State, AboutToExecute s 0x0000006F#32 → step s = .next s ∧ (∀ t, Reaches s t → t = s) ∧ SafeRun s

/-- All four events are precise: a step after which the machine is not Running has changed the status and nothing else.
Rests on R99 and R226 with the spec's decisions D4 and D5. -/
def Obligations.StoppingStepChangesOnlyTheStatus : Prop :=
  ∀ s t : State, step s = .next t → t.status ≠ .running → StopsWith s t t.status

/-- A step is all of one instruction: at most one register changes, the bytes that change lie in one window of at most
four, and never both (R99, R40). -/
def Obligations.StepWritesAtMostOneRegisterOrOneMemoryWindow : Prop :=
  ∀ s t : State, step s = .next t →
    ((∀ a : Nat, t.mem.byteAt a = s.mem.byteAt a) ∧ ∃ rd : Reg, ∀ r : Reg, r ≠ rd → t.reg r = s.reg r) ∨
    ((∀ r : Reg, t.reg r = s.reg r) ∧ ∃ (w : Word) (rs1 rs2 : Reg) (imm : Word) (n : Width), AboutToExecute s w ∧
      (decode w = .ok (.sb rs1 rs2 imm) ∧ n = .byte ∨ decode w = .ok (.sh rs1 rs2 imm) ∧ n = .half ∨
        decode w = .ok (.sw rs1 rs2 imm) ∧ n = .word) ∧
      ∀ a : Nat, ¬((s.reg rs1 + imm).toNat ≤ a ∧ a < (s.reg rs1 + imm).toNat + n.bytes) →
        t.mem.byteAt a = s.mem.byteAt a)

/-- Only SB, SH and SW change memory (10_state.md section 5), and no step changes MEM_SIZE or IMAGE_LEN (00_scope.md
section 3). -/
def Obligations.OnlyStoresChangeMemory : Prop :=
  ∀ s t : State, step s = .next t → t.cfg = s.cfg ∧
    (t.mem ≠ s.mem → ∃ w rs1 rs2 imm, AboutToExecute s w ∧
      (decode w = .ok (.sb rs1 rs2 imm) ∨ decode w = .ok (.sh rs1 rs2 imm) ∨ decode w = .ok (.sw rs1 rs2 imm)))

/-- The write column of the register table: an instruction leaves every register but the one it names unchanged. Rests on
the spec's inference R13. -/
def Obligations.InstructionsWriteOnlyTheirDestination : Prop :=
  ∀ (i : Instr) (s t : State) (r : Reg), exec i s = .next t → i.writes ≠ some r → t.reg r = s.reg r

/-- The read column of the register table: a Running state and one that agrees with it on the pc, the memory, the
status, the parameters and the registers an instruction reads are taken by it to states that agree on the pc, the memory,
the status and, when the instruction completes, the register it writes. What the other registers hold cannot show. Rests
on the spec's inference R13. -/
def Obligations.UnreadRegistersDoNotMatter : Prop :=
  ∀ (i : Instr) (s u t : State), s.status = .running → u.pc = s.pc → u.mem = s.mem → u.status = s.status →
    u.cfg = s.cfg → (∀ r ∈ i.reads, u.reg r = s.reg r) → exec i s = .next t →
    ∃ t', exec i u = .next t' ∧ t'.pc = t.pc ∧ t'.mem = t.mem ∧ t'.status = t.status ∧ t'.cfg = t.cfg ∧
      (t.status = .running → ∀ r, i.writes = some r → t'.reg r = t.reg r)

/-! ## Around the core -/

/-- The register dump is 128 bytes, x0 first, each register little-endian, and the exit code of a run that ended normally
is 0 (R232, R102). That the exit code is none for a Faulted and a Running status is the model's choice (log entry 10): the
spec leaves the code of a Faulted run open and gives a Running machine none. -/
def Obligations.RegisterDumpAndExitCode : Prop :=
  (∀ s : State, s.registerDump.length = 128 ∧ ∀ (r : Reg) (k : Nat), k < 4 →
    s.registerDump[4 * r.val + k]? = some (BitVec.ofNat 8 ((s.reg r).toNat / 2 ^ (8 * k)))) ∧
  (∀ reason, Status.exitCode (.halted reason) = some 0) ∧
  (∀ reason, Status.exitCode (.faulted reason) = none) ∧ Status.exitCode .running = none

/-- The model's own loader of one word (log entry 6): whatever the state, the very next step after it runs the
instruction the decoder reads from that word, and the registers and the pc are untouched. -/
def Obligations.PlacedWordIsExecutedNext : Prop :=
  ∀ (s : State) (w : Nat) (i : Instr), decodeTableWord 32 w = some i →
    step (s.withFetchWord 32 w) = exec i (s.withFetchWord 32 w) ∧
      (s.withFetchWord 32 w).regs = s.regs ∧ (s.withFetchWord 32 w).pc = s.pc
end

