-- ==== Sys2Proof/Laws/Bits.lean ====
section
/-! SUPPORT. The byte-order and register-field helpers. -/

namespace Sys2Proof

@[simp] theorem length_bytesOf (v : Word) (n : Nat) : (bytesOf v n).length = n := by simp [bytesOf]

theorem byteOf_eq_ofNat (v : Word) (k : Nat) : byteOf v k = BitVec.ofNat 8 (v.toNat / 2 ^ (8 * k)) := by
  apply BitVec.eq_of_toNat_eq
  simp [byteOf, BitVec.extractLsb'_toNat, Nat.shiftRight_eq_div_pow]

theorem getElem?_bytesOf {v : Word} {n k : Nat} (h : k < n) :
    (bytesOf v n)[k]? = some (BitVec.ofNat 8 (v.toNat / 2 ^ (8 * k))) := by
  simp [bytesOf, List.getElem?_range h, byteOf_eq_ofNat]

/-- The value of a byte list grows by 256 per byte, as long as it stays inside a word. -/
theorem toNat_wordOf_cons {b : Byte} {bs : List Byte} (h : (wordOf bs).toNat < 2 ^ 24) :
    (wordOf (b :: bs)).toNat = 2 ^ 8 * (wordOf bs).toNat + b.toNat := by
  have hb := b.isLt
  have h1 : (wordOf bs).toNat <<< 8 % 2 ^ 32 = (wordOf bs).toNat <<< 8 := by
    rw [Nat.shiftLeft_eq]; omega
  have h2 : b.toNat % 2 ^ 32 = b.toNat := by omega
  simp only [wordOf, zext, BitVec.toNat_or, BitVec.toNat_shiftLeft, BitVec.toNat_setWidth, h1, h2]
  rw [← Nat.shiftLeft_add_eq_or_of_lt hb, Nat.shiftLeft_eq]
  omega

theorem toNat_wordOf_one (b0 : Byte) : (wordOf [b0]).toNat = b0.toNat := by
  rw [toNat_wordOf_cons (by simp [wordOf])]; simp [wordOf]

theorem toNat_wordOf_two (b0 b1 : Byte) : (wordOf [b0, b1]).toNat = 2 ^ 8 * b1.toNat + b0.toNat := by
  have h1 := toNat_wordOf_one b1
  have := b1.isLt
  rw [toNat_wordOf_cons (by omega), h1]

theorem toNat_wordOf_four (b0 b1 b2 b3 : Byte) :
    (wordOf [b0, b1, b2, b3]).toNat = 2 ^ 24 * b3.toNat + 2 ^ 16 * b2.toNat + 2 ^ 8 * b1.toNat + b0.toNat := by
  have h2 := toNat_wordOf_two b2 b3
  have := b0.isLt; have := b1.isLt; have := b2.isLt; have := b3.isLt
  have h3 : (wordOf [b1, b2, b3]).toNat = 2 ^ 8 * (wordOf [b2, b3]).toNat + b1.toNat :=
    toNat_wordOf_cons (by omega)
  rw [toNat_wordOf_cons (by omega), h3, h2]
  omega

/-- The bytes of a word, put together again, are the word. -/
theorem wordOf_bytesOf (v : Word) : wordOf (bytesOf v 4) = v := by
  apply BitVec.eq_of_toNat_eq
  have h : bytesOf v 4 = [byteOf v 0, byteOf v 1, byteOf v 2, byteOf v 3] := rfl
  have := v.isLt
  rw [h, toNat_wordOf_four]
  simp only [byteOf_eq_ofNat, BitVec.toNat_ofNat]
  omega

@[simp] theorem regOf_regBits (r : Reg) : regOf (regBits r) = r := by
  apply Fin.ext
  have := r.isLt
  simp [regOf, regBits]

@[simp] theorem regBits_regOf (v : BitVec 5) : regBits (regOf v) = v := by
  apply BitVec.eq_of_toNat_eq
  have := v.isLt
  simp [regOf, regBits]

end Sys2Proof
end

