-- ==== Sys2Proof/Laws/Encoding.lean ====
section
/-! SUPPORT. The fields, the masks and the encoded words as numbers, so that a question about bits becomes linear
arithmetic. -/

namespace Sys2Proof

theorem toNat_append_add {n m : Nat} (x : BitVec n) (y : BitVec m) :
    (x ++ y).toNat = x.toNat * 2 ^ m + y.toNat := by
  rw [BitVec.toNat_append, ← Nat.shiftLeft_add_eq_or_of_lt y.isLt, Nat.shiftLeft_eq]

theorem toNat_field (w : Word) (lo len : Nat) : (w.extractLsb' lo len).toNat = w.toNat / 2 ^ lo % 2 ^ len := by
  rw [BitVec.extractLsb'_toNat, Nat.shiftRight_eq_div_pow]

@[simp] theorem toNat_regBits (r : Reg) : (regBits r).toNat = r.val := by
  have := r.isLt
  simp only [regBits, BitVec.toNat_ofNat]; omega

/-! ### The fields of a word -/

theorem toNat_opcodeOf (w : Word) : (opcodeOf w).toNat = w.toNat % 2 ^ 7 := by
  simp only [opcodeOf, toNat_field]; omega

theorem val_rdOf (w : Word) : (rdOf w).val = w.toNat / 2 ^ 7 % 2 ^ 5 := toNat_field w 7 5

theorem toNat_funct3Of (w : Word) : (funct3Of w).toNat = w.toNat / 2 ^ 12 % 2 ^ 3 := toNat_field w 12 3

theorem val_rs1Of (w : Word) : (rs1Of w).val = w.toNat / 2 ^ 15 % 2 ^ 5 := toNat_field w 15 5

theorem val_rs2Of (w : Word) : (rs2Of w).val = w.toNat / 2 ^ 20 % 2 ^ 5 := toNat_field w 20 5

theorem toNat_funct7Of (w : Word) : (funct7Of w).toNat = w.toNat / 2 ^ 25 := by
  have := w.isLt
  simp only [funct7Of, toNat_field]; omega

/-! ### The masks of the opcode map -/

/-- Masking with the bits of a mask that is a concatenation of whole fields: the R shape. -/
theorem and_mask_funct7 (a : BitVec 7) (b c : BitVec 5) (f3 : BitVec 3) (d : BitVec 5) (op : BitVec 7) :
    (a ++ b ++ c ++ f3 ++ d ++ op) &&& 0xFE00707F#32 = a ++ 0#5 ++ 0#5 ++ f3 ++ 0#5 ++ op := by
  have h : 0xFE00707F#32 =
      BitVec.allOnes 7 ++ 0#5 ++ 0#5 ++ BitVec.allOnes 3 ++ 0#5 ++ BitVec.allOnes 7 := by decide
  rw [h]
  erw [BitVec.and_append, BitVec.and_append, BitVec.and_append, BitVec.and_append, BitVec.and_append]
  simp only [BitVec.and_allOnes, BitVec.and_zero]

theorem and_mask_funct3 (a : BitVec 7) (b c : BitVec 5) (f3 : BitVec 3) (d : BitVec 5) (op : BitVec 7) :
    (a ++ b ++ c ++ f3 ++ d ++ op) &&& 0x0000707F#32 = 0#7 ++ 0#5 ++ 0#5 ++ f3 ++ 0#5 ++ op := by
  have h : 0x0000707F#32 = 0#7 ++ 0#5 ++ 0#5 ++ BitVec.allOnes 3 ++ 0#5 ++ BitVec.allOnes 7 := by decide
  rw [h]
  erw [BitVec.and_append, BitVec.and_append, BitVec.and_append, BitVec.and_append, BitVec.and_append]
  simp only [BitVec.and_allOnes, BitVec.and_zero]

/-- Every word is the concatenation of its R-shaped fields. -/
theorem word_eq_fields (w : Word) :
    w = funct7Of w ++ w.extractLsb' 20 5 ++ w.extractLsb' 15 5 ++ funct3Of w ++ w.extractLsb' 7 5 ++ opcodeOf w := by
  have := w.isLt
  apply BitVec.eq_of_toNat_eq
  simp only [toNat_append_add, toNat_field, toNat_funct7Of, toNat_funct3Of, toNat_opcodeOf]
  omega

theorem toNat_mask_funct7 (w : Word) : (w &&& 0xFE00707F#32).toNat =
    2 ^ 25 * (w.toNat / 2 ^ 25) + 2 ^ 12 * (w.toNat / 2 ^ 12 % 2 ^ 3) + w.toNat % 2 ^ 7 := by
  have h := congrArg (· &&& 0xFE00707F#32) (word_eq_fields w)
  simp only [and_mask_funct7] at h
  rw [h]
  simp only [toNat_append_add, toNat_funct7Of, toNat_funct3Of, toNat_opcodeOf, BitVec.toNat_ofNat]
  omega

theorem toNat_mask_funct3 (w : Word) : (w &&& 0x0000707F#32).toNat =
    2 ^ 12 * (w.toNat / 2 ^ 12 % 2 ^ 3) + w.toNat % 2 ^ 7 := by
  have h := congrArg (· &&& 0x0000707F#32) (word_eq_fields w)
  simp only [and_mask_funct3] at h
  rw [h]
  simp only [toNat_append_add, toNat_funct3Of, toNat_opcodeOf, BitVec.toNat_ofNat]
  omega

theorem toNat_mask_opcode (w : Word) : (w &&& 0x0000007F#32).toNat = w.toNat % 2 ^ 7 := by
  rw [BitVec.toNat_and]
  exact Nat.and_two_pow_sub_one_eq_mod w.toNat 7

theorem mask_all (w : Word) : w &&& 0xFFFFFFFF#32 = w := by
  have h : 0xFFFFFFFF#32 = BitVec.allOnes 32 := by decide
  rw [h, BitVec.and_allOnes]

/-! ### The encoded words -/

variable (op f7 : BitVec 7) (rd rs1 rs2 : Reg) (f3 : BitVec 3) (imm : Word)

theorem toNat_encode_r : (encodeDecoded (.r op rd rs1 rs2 f3 f7)).toNat =
    2 ^ 25 * f7.toNat + 2 ^ 20 * rs2.val + 2 ^ 15 * rs1.val + 2 ^ 12 * f3.toNat + 2 ^ 7 * rd.val + op.toNat := by
  simp only [encodeDecoded, toNat_append_add, toNat_regBits]; omega

theorem toNat_encode_i : (encodeDecoded (.i op rd rs1 f3 imm)).toNat =
    2 ^ 20 * (imm.toNat % 2 ^ 12) + 2 ^ 15 * rs1.val + 2 ^ 12 * f3.toNat + 2 ^ 7 * rd.val + op.toNat := by
  simp only [encodeDecoded, toNat_append_add, toNat_regBits, toNat_field]; omega

theorem toNat_encode_s : (encodeDecoded (.s op rs1 rs2 f3 imm)).toNat =
    2 ^ 25 * (imm.toNat / 2 ^ 5 % 2 ^ 7) + 2 ^ 20 * rs2.val + 2 ^ 15 * rs1.val + 2 ^ 12 * f3.toNat
      + 2 ^ 7 * (imm.toNat % 2 ^ 5) + op.toNat := by
  simp only [encodeDecoded, toNat_append_add, toNat_regBits, toNat_field]; omega

theorem toNat_encode_u : (encodeDecoded (.u op rd imm)).toNat =
    2 ^ 12 * (imm.toNat / 2 ^ 12) + 2 ^ 7 * rd.val + op.toNat := by
  have := imm.isLt
  simp only [encodeDecoded, toNat_append_add, toNat_regBits, toNat_field]; omega

theorem toNat_encode_b : (encodeDecoded (.b op rs1 rs2 f3 imm)).toNat =
    2 ^ 31 * (imm.toNat / 2 ^ 12 % 2) + 2 ^ 25 * (imm.toNat / 2 ^ 5 % 2 ^ 6) + 2 ^ 20 * rs2.val + 2 ^ 15 * rs1.val
      + 2 ^ 12 * f3.toNat + 2 ^ 8 * (imm.toNat / 2 % 2 ^ 4) + 2 ^ 7 * (imm.toNat / 2 ^ 11 % 2) + op.toNat := by
  simp only [encodeDecoded, toNat_append_add, toNat_regBits, toNat_field]; omega

theorem toNat_encode_j : (encodeDecoded (.j op rd imm)).toNat =
    2 ^ 31 * (imm.toNat / 2 ^ 20 % 2) + 2 ^ 21 * (imm.toNat / 2 % 2 ^ 10) + 2 ^ 20 * (imm.toNat / 2 ^ 11 % 2)
      + 2 ^ 12 * (imm.toNat / 2 ^ 12 % 2 ^ 8) + 2 ^ 7 * rd.val + op.toNat := by
  simp only [encodeDecoded, toNat_append_add, toNat_regBits, toNat_field]; omega

/-! ### What the masks keep of an encoded word -/

/-- An R word under the mask with funct7, funct3 and opcode. -/
theorem mask_encode_r : encodeDecoded (.r op rd rs1 rs2 f3 f7) &&& 0xFE00707F#32 =
    BitVec.ofNat 32 (2 ^ 25 * f7.toNat + 2 ^ 12 * f3.toNat + op.toNat) := by
  have := op.isLt; have := f3.isLt; have := f7.isLt; have := rd.isLt; have := rs1.isLt; have := rs2.isLt
  apply BitVec.eq_of_toNat_eq
  simp only [toNat_mask_funct7, toNat_encode_r, BitVec.toNat_ofNat]
  omega

/-- A shift-immediate word under the mask with imm[11:5], funct3 and opcode. -/
theorem mask_encode_shift (up : BitVec 7) (shamt : BitVec 5) :
    encodeDecoded (.i op rd rs1 f3 (zext (up ++ shamt))) &&& 0xFE00707F#32 =
      BitVec.ofNat 32 (2 ^ 25 * up.toNat + 2 ^ 12 * f3.toNat + op.toNat) := by
  have := op.isLt; have := f3.isLt; have := rd.isLt; have := rs1.isLt; have := up.isLt; have := shamt.isLt
  apply BitVec.eq_of_toNat_eq
  simp only [toNat_mask_funct7, toNat_encode_i, zext, BitVec.toNat_setWidth, toNat_append_add, BitVec.toNat_ofNat]
  omega

/-- An I word under the mask with funct3 and opcode. -/
theorem mask_encode_i : encodeDecoded (.i op rd rs1 f3 imm) &&& 0x0000707F#32 =
    BitVec.ofNat 32 (2 ^ 12 * f3.toNat + op.toNat) := by
  have := op.isLt; have := f3.isLt; have := rd.isLt; have := rs1.isLt
  apply BitVec.eq_of_toNat_eq
  simp only [toNat_mask_funct3, toNat_encode_i, BitVec.toNat_ofNat]
  omega

/-- An S word under the mask with funct3 and opcode. -/
theorem mask_encode_s : encodeDecoded (.s op rs1 rs2 f3 imm) &&& 0x0000707F#32 =
    BitVec.ofNat 32 (2 ^ 12 * f3.toNat + op.toNat) := by
  have := op.isLt; have := f3.isLt; have := rs1.isLt; have := rs2.isLt
  apply BitVec.eq_of_toNat_eq
  simp only [toNat_mask_funct3, toNat_encode_s, BitVec.toNat_ofNat]
  omega

/-- A B word under the mask with funct3 and opcode. The scattered immediate bits are named first, so that the arithmetic
sees them as plain numbers. -/
theorem mask_encode_b : encodeDecoded (.b op rs1 rs2 f3 imm) &&& 0x0000707F#32 =
    BitVec.ofNat 32 (2 ^ 12 * f3.toNat + op.toNat) := by
  have := op.isLt; have := f3.isLt; have := rs1.isLt; have := rs2.isLt
  obtain ⟨x, hx⟩ : ∃ x, x = imm.toNat / 2 ^ 12 % 2 := ⟨_, rfl⟩
  obtain ⟨y, hy⟩ : ∃ y, y = imm.toNat / 2 ^ 5 % 2 ^ 6 := ⟨_, rfl⟩
  obtain ⟨z, hz⟩ : ∃ z, z = imm.toNat / 2 % 2 ^ 4 := ⟨_, rfl⟩
  obtain ⟨u, hu⟩ : ∃ u, u = imm.toNat / 2 ^ 11 % 2 := ⟨_, rfl⟩
  have bx : x < 2 := hx ▸ Nat.mod_lt _ (by decide)
  have b2 : y < 2 ^ 6 := hy ▸ Nat.mod_lt _ (by decide)
  have bz : z < 2 ^ 4 := hz ▸ Nat.mod_lt _ (by decide)
  have bu : u < 2 := hu ▸ Nat.mod_lt _ (by decide)
  apply BitVec.eq_of_toNat_eq
  simp only [toNat_mask_funct3, toNat_encode_b, ← hx, ← hy, ← hz, ← hu, BitVec.toNat_ofNat]
  clear hx hy hz hu
  omega

/-- A U word under the mask with the opcode. -/
theorem mask_encode_u : encodeDecoded (.u op rd imm) &&& 0x0000007F#32 = BitVec.ofNat 32 op.toNat := by
  have := op.isLt; have := rd.isLt
  apply BitVec.eq_of_toNat_eq
  simp only [toNat_mask_opcode, toNat_encode_u, BitVec.toNat_ofNat]
  omega

/-- A J word under the mask with the opcode. -/
theorem mask_encode_j : encodeDecoded (.j op rd imm) &&& 0x0000007F#32 = BitVec.ofNat 32 op.toNat := by
  have := op.isLt; have := rd.isLt
  apply BitVec.eq_of_toNat_eq
  simp only [toNat_mask_opcode, toNat_encode_j, BitVec.toNat_ofNat]
  omega

end Sys2Proof
end

