-- ==== Sys2Proof/Laws/Memory.lean ====
section
/-! SUPPORT. The laws of the memory operations: read after write, and the canonical form is kept. -/

namespace Sys2Proof.Machine

/-! ### Read after write -/

theorem Memory.byteAt_removeByte (m : Memory) (a x : Nat) :
    (m.removeByte a).byteAt x = if x = a then Memory.unlisted else m.byteAt x := by
  induction m with
  | nil => simp [Memory.removeByte, Memory.byteAt]
  | cons cell rest ih =>
    obtain ⟨k, v⟩ := cell
    unfold Memory.removeByte at ih ⊢
    by_cases hk : k = a
    · subst hk
      simp only [List.filter, ne_eq, not_true_eq_false, decide_false, ih, Memory.byteAt]
      by_cases hx : x = k <;> simp [hx, eq_comm]
    · simp only [List.filter, ne_eq, hk, not_false_eq_true, decide_true, Memory.byteAt, ih]
      by_cases hx : k = x
      · simp [← hx, hk]
      · simp [hx]

theorem Memory.byteAt_insertByte (m : Memory) (a x : Nat) (b : Byte) (h : ∀ cell ∈ m, cell.1 ≠ a) :
    (m.insertByte a b).byteAt x = if x = a then b else m.byteAt x := by
  induction m with
  | nil => simp [Memory.insertByte, Memory.byteAt, eq_comm]
  | cons cell rest ih =>
    obtain ⟨k, v⟩ := cell
    have hk : k ≠ a := h (k, v) (by simp)
    have ih := ih fun c hc => h c (by simp [hc])
    by_cases hlt : a < k
    · simp [Memory.insertByte, hlt, Memory.byteAt, eq_comm]
    · simp only [Memory.insertByte, hlt, if_false, Memory.byteAt, ih]
      by_cases hx : k = x
      · simp [← hx, hk]
      · simp [hx]

theorem Memory.mem_removeByte {m : Memory} {a : Nat} {cell : Host.Cell} (h : cell ∈ m.removeByte a) :
    cell ∈ m ∧ cell.1 ≠ a := by
  simpa [Memory.removeByte] using h

/-- A read after a write of one byte, at every address (R31, R35). -/
@[simp] theorem Memory.byteAt_setByte (m : Memory) (a x : Nat) (b : Byte) :
    (m.setByte a b).byteAt x = if x = a then b else m.byteAt x := by
  unfold Memory.setByte
  split
  · next h => rw [Memory.byteAt_removeByte, h]
  · rw [Memory.byteAt_insertByte _ _ _ _ fun c hc => (Memory.mem_removeByte hc).2, Memory.byteAt_removeByte]
    split <;> rfl

/-- A read after a write of several bytes, at every address (R35). -/
theorem Memory.byteAt_setBytes (bs : List Byte) (m : Memory) (a x : Nat) :
    (m.setBytes a bs).byteAt x = if a ≤ x ∧ x < a + bs.length then (bs[x - a]?).getD 0 else m.byteAt x := by
  induction bs generalizing m a with
  | nil =>
    have : ¬(a ≤ x ∧ x < a + ([] : List Byte).length) := by simp
    rw [if_neg this]; rfl
  | cons b bs ih =>
    simp only [Memory.setBytes, ih, Memory.byteAt_setByte, List.length_cons]
    by_cases hx : x = a
    · subst hx
      simp
    · by_cases hin : a + 1 ≤ x ∧ x < a + 1 + bs.length
      · have h2 : a ≤ x ∧ x < a + (bs.length + 1) := by omega
        obtain ⟨k, hk⟩ : ∃ k, x - a = k + 1 := ⟨x - a - 1, by omega⟩
        have h3 : x - (a + 1) = k := by omega
        rw [if_pos hin, if_pos h2, hk, h3, List.getElem?_cons_succ]
      · have h2 : ¬(a ≤ x ∧ x < a + (bs.length + 1)) := by omega
        rw [if_neg hin, if_neg h2, if_neg hx]

/-! ### The canonical form -/

theorem Memory.wfFrom_cons {low k : Nat} {v : Byte} {rest : Memory} :
    Memory.wfFrom low ((k, v) :: rest) = true ↔
      low ≤ k ∧ v ≠ Memory.unlisted ∧ Memory.wfFrom (k + 1) rest = true := by
  simp [Memory.wfFrom, and_assoc]

theorem Memory.wfFrom_mono {m : Memory} {low low' : Nat} (hle : low' ≤ low) (h : Memory.wfFrom low m = true) :
    Memory.wfFrom low' m = true := by
  cases m with
  | nil => rfl
  | cons cell rest =>
    obtain ⟨k, v⟩ := cell
    rw [Memory.wfFrom_cons] at h ⊢
    exact ⟨Nat.le_trans hle h.1, h.2⟩

theorem Memory.wfFrom_removeByte {m : Memory} {low : Nat} (a : Nat) (h : Memory.wfFrom low m = true) :
    Memory.wfFrom low (m.removeByte a) = true := by
  induction m generalizing low with
  | nil => rfl
  | cons cell rest ih =>
    obtain ⟨k, v⟩ := cell
    rw [Memory.wfFrom_cons] at h
    have hrest := ih h.2.2
    unfold Memory.removeByte at hrest ⊢
    by_cases hk : k = a
    · simp only [List.filter, hk, ne_eq, not_true_eq_false, decide_false]
      exact Memory.wfFrom_mono (by omega) (hk ▸ hrest)
    · simp only [List.filter, hk, ne_eq, not_false_eq_true, decide_true]
      exact Memory.wfFrom_cons.mpr ⟨h.1, h.2.1, hrest⟩

theorem Memory.wfFrom_insertByte {m : Memory} {low a : Nat} {b : Byte} (h : Memory.wfFrom low m = true)
    (ha : low ≤ a) (hb : b ≠ Memory.unlisted) (hm : ∀ cell ∈ m, cell.1 ≠ a) :
    Memory.wfFrom low (m.insertByte a b) = true := by
  induction m generalizing low with
  | nil => exact Memory.wfFrom_cons.mpr ⟨ha, hb, rfl⟩
  | cons cell rest ih =>
    obtain ⟨k, v⟩ := cell
    have hka : k ≠ a := hm (k, v) (by simp)
    rw [Memory.wfFrom_cons] at h
    unfold Memory.insertByte
    split
    · exact Memory.wfFrom_cons.mpr ⟨ha, hb, Memory.wfFrom_cons.mpr ⟨by omega, h.2⟩⟩
    · exact Memory.wfFrom_cons.mpr
        ⟨h.1, h.2.1, ih h.2.2 (by omega) fun c hc => hm c (by simp [hc])⟩

/-- Writing a byte keeps the canonical form. -/
theorem Memory.wf_setByte {m : Memory} (h : m.wf = true) (a : Nat) (b : Byte) : (m.setByte a b).wf = true := by
  unfold Memory.wf Memory.setByte at *
  split
  · exact Memory.wfFrom_removeByte a h
  · next hb =>
    exact Memory.wfFrom_insertByte (Memory.wfFrom_removeByte a h) (Nat.zero_le a) hb
      fun c hc => (Memory.mem_removeByte hc).2

/-- Writing bytes keeps the canonical form. -/
theorem Memory.wf_setBytes {m : Memory} (h : m.wf = true) (a : Nat) (bs : List Byte) :
    (m.setBytes a bs).wf = true := by
  induction bs generalizing m a with
  | nil => exact h
  | cons b bs ih => exact ih (Memory.wf_setByte h a b) (a + 1)

/-- The memory at launch is in the canonical form. -/
theorem Memory.wf_ofFn (n : Nat) (content : Nat → Byte) : (Memory.ofFn n content).wf = true := by
  suffices h : ∀ k low, Memory.wfFrom low ((List.range' low k).filterMap fun a =>
      if content a = Memory.unlisted then none else some (a, content a)) = true by
    simpa [Memory.ofFn, Memory.wf, List.range_eq_range'] using h n 0
  intro k
  induction k with
  | zero => intro low; rfl
  | succ k ih =>
    intro low
    rw [List.range'_succ, List.filterMap_cons]
    by_cases hc : content low = Memory.unlisted
    · simp only [hc, if_true]
      exact Memory.wfFrom_mono (Nat.le_succ low) (ih (low + 1))
    · simp only [hc, if_false]
      exact Memory.wfFrom_cons.mpr ⟨le_rfl, hc, ih (low + 1)⟩

/-! ### Listed addresses stay inside the memory -/

theorem Memory.mem_insertByte {m : Memory} {a : Nat} {b : Byte} {cell : Host.Cell} (h : cell ∈ m.insertByte a b) :
    cell = (a, b) ∨ cell ∈ m := by
  induction m with
  | nil => simpa [Memory.insertByte] using h
  | cons head rest ih =>
    obtain ⟨k, v⟩ := head
    unfold Memory.insertByte at h
    split at h
    · simpa using h
    · rcases List.mem_cons.mp h with h | h
      · simp [h]
      · rcases ih h with h | h <;> simp [h]

theorem Memory.within_setByte {m : Memory} {size a : Nat} {b : Byte} (h : m.within size = true) (ha : a < size) :
    (m.setByte a b).within size = true := by
  unfold Memory.within at *
  rw [List.all_eq_true] at *
  intro cell hc
  unfold Memory.setByte at hc
  split at hc
  · exact h cell (Memory.mem_removeByte hc).1
  · rcases Memory.mem_insertByte hc with rfl | hc
    · simpa using ha
    · exact h cell (Memory.mem_removeByte hc).1

theorem Memory.within_setBytes {m : Memory} {size a : Nat} {bs : List Byte} (h : m.within size = true)
    (ha : a + bs.length ≤ size) : (m.setBytes a bs).within size = true := by
  induction bs generalizing m a with
  | nil => exact h
  | cons b bs ih =>
    simp only [List.length_cons] at ha
    exact ih (Memory.within_setByte h (by omega)) (by omega)

end Sys2Proof.Machine
end

