-- ==== Sys2Proof/Laws/State.lean ====
section
/-! SUPPORT. One lemma per field per update of State, so that no proof unfolds a record update. -/

namespace Sys2Proof.Machine

variable (s : State) (r q : Reg) (v t : Word) (st : Status) (m : Memory)

/-! ### Reading a register -/

@[simp] theorem State.reg_zero : s.reg 0 = 0#32 := rfl

/-- A register reads its slot and nothing else: states with the same slots read alike. -/
theorem State.reg_congr {s u : State} (h : u.regs = s.regs) : u.reg r = s.reg r := by
  simp [State.reg, h]

/-! ### setReg -/

@[simp] theorem State.setReg_zero : s.setReg 0 v = s := rfl

@[simp] theorem State.setReg_pc : (s.setReg r v).pc = s.pc := by unfold State.setReg; split <;> rfl

@[simp] theorem State.setReg_mem : (s.setReg r v).mem = s.mem := by unfold State.setReg; split <;> rfl

@[simp] theorem State.setReg_status : (s.setReg r v).status = s.status := by unfold State.setReg; split <;> rfl

@[simp] theorem State.setReg_cfg : (s.setReg r v).cfg = s.cfg := by unfold State.setReg; split <;> rfl

/-- Read after write, for every pair of registers and register 0 (R11, R12). -/
@[simp] theorem State.setReg_reg : (s.setReg r v).reg q = if q = r ∧ q ≠ 0 then v else s.reg q := by
  unfold State.setReg State.reg
  by_cases hr : r = 0
  · subst hr
    by_cases hq : q = 0 <;> simp [hq]
  · by_cases hq : q = 0
    · simp [hq]
    · by_cases he : q = r
      · subst he; simp [hq]
      · have hne : r.val ≠ q.val := fun h => he (Fin.ext h.symm)
        simp [hr, hq, he, hne]

/-- Slot 0 is never written (R12). -/
@[simp] theorem State.setReg_slot_zero : (s.setReg r v).regs[0] = s.regs[0] := by
  unfold State.setReg
  split
  · rfl
  · rename_i h
    have hne : r.val ≠ 0 := fun h' => h (Fin.ext h')
    simp [hne]

/-! ### setPc and advance -/

@[simp] theorem State.setPc_pc : (s.setPc t).pc = t := rfl
@[simp] theorem State.setPc_regs : (s.setPc t).regs = s.regs := rfl
@[simp] theorem State.setPc_reg : (s.setPc t).reg q = s.reg q := rfl
@[simp] theorem State.setPc_mem : (s.setPc t).mem = s.mem := rfl
@[simp] theorem State.setPc_status : (s.setPc t).status = s.status := rfl
@[simp] theorem State.setPc_cfg : (s.setPc t).cfg = s.cfg := rfl

@[simp] theorem State.advance_pc : s.advance.pc = s.pc + 4#32 := rfl
@[simp] theorem State.advance_regs : s.advance.regs = s.regs := rfl
@[simp] theorem State.advance_reg : s.advance.reg q = s.reg q := rfl
@[simp] theorem State.advance_mem : s.advance.mem = s.mem := rfl
@[simp] theorem State.advance_status : s.advance.status = s.status := rfl
@[simp] theorem State.advance_cfg : s.advance.cfg = s.cfg := rfl

/-! ### The memory and status updates -/

@[simp] theorem State.reg_withMem : ({ s with mem := m } : State).reg q = s.reg q := rfl
@[simp] theorem State.reg_withStatus : ({ s with status := st } : State).reg q = s.reg q := rfl

end Sys2Proof.Machine
end

