-- ==== Sys2Proof/Laws/Ops.lean ====
section
/-! SUPPORT. One lemma per shared operation that says once everything it can do. -/

namespace Sys2Proof.Machine

variable {s t : State} {rd rs1 rs2 : Reg} {imm v target addr : Word} {w : Width}

/-! ### Register results and jumps -/

/-- All that `writeAndAdvance` does. -/
theorem State.writeAndAdvance_effect (s : State) (rd : Reg) (v : Word) :
    ∃ t, s.writeAndAdvance rd v = .next t ∧ RegisterEffect s t rd v (s.pc + 4#32) ∧ t.mem = s.mem ∧
      t.regs[0] = s.regs[0] :=
  ⟨_, rfl, ⟨by simp, by simp, by simp, by simp, by simp⟩, by simp, by simp⟩

/-- All that `linkAndJump` does. -/
theorem State.linkAndJump_effect (s : State) (rd : Reg) (target : Word) :
    ∃ t, s.linkAndJump rd target = .next t ∧ RegisterEffect s t rd (s.pc + 4#32) target ∧ t.mem = s.mem ∧
      t.regs[0] = s.regs[0] :=
  ⟨_, rfl, ⟨by simp, by simp, by simp, by simp, by simp⟩, by simp, by simp⟩

/-- All that `branch` does. -/
theorem State.branch_effect (s : State) (taken : Bool) (imm : Word) :
    ∃ t, s.branch taken imm = .next t ∧ PcEffect s t (if taken then s.pc + imm else s.pc + 4#32) ∧ t.mem = s.mem ∧
      t.regs[0] = s.regs[0] := by
  cases taken
  · exact ⟨s.advance, rfl, ⟨by simp, by simp, by simp, by simp, by simp⟩, rfl, rfl⟩
  · exact ⟨s.setPc (s.pc + imm), rfl, ⟨by simp, by simp, by simp, by simp, by simp⟩, rfl, rfl⟩

/-! ### Memory access -/

theorem State.inRange_iff : s.inRange addr w = true ↔ addr.toNat + w.bytes ≤ s.cfg.memSize := by
  simp [State.inRange]

theorem State.memRead_inRange {kind : AccessKind} (h : addr.toNat + w.bytes ≤ s.cfg.memSize) :
    s.memRead kind addr w = .ok (wordOf (s.mem.bytesAt addr.toNat w.bytes)) := by
  simp [State.memRead, State.inRange_iff, h]

theorem State.memRead_outOfRange {kind : AccessKind} (h : s.cfg.memSize < addr.toNat + w.bytes) :
    s.memRead kind addr w = .error (.memFault kind addr w) := by
  have : ¬addr.toNat + w.bytes ≤ s.cfg.memSize := by omega
  simp [State.memRead, State.inRange_iff, this]

theorem State.memWrite_inRange (h : addr.toNat + w.bytes ≤ s.cfg.memSize) :
    s.memWrite addr w v = .ok { s with mem := s.mem.setBytes addr.toNat (bytesOf v w.bytes) } := by
  simp [State.memWrite, State.inRange_iff, h]

theorem State.memWrite_outOfRange (h : s.cfg.memSize < addr.toNat + w.bytes) :
    s.memWrite addr w v = .error (.memFault .store addr w) := by
  have : ¬addr.toNat + w.bytes ≤ s.cfg.memSize := by omega
  simp [State.memWrite, State.inRange_iff, this]

/-- A byte after a write of the low `n` bytes of a word. -/
theorem Memory.byteAt_setBytes_bytesOf (m : Memory) (a n x : Nat) (v : Word) :
    (m.setBytes a (bytesOf v n)).byteAt x =
      if a ≤ x ∧ x < a + n then BitVec.ofNat 8 (v.toNat / 2 ^ (8 * (x - a))) else m.byteAt x := by
  rw [Memory.byteAt_setBytes, length_bytesOf]
  split
  · next h => rw [getElem?_bytesOf (by omega)]; rfl
  · rfl

/-- All that `load` does: out of range it faults, in range it writes the extended value. -/
theorem State.load_cases (s : State) (w : Width) (extend : Word → Word) (rd rs1 : Reg) (imm : Word) :
    (s.cfg.memSize < (s.effectiveAddress rs1 imm).toNat + w.bytes ∧
      s.load w extend rd rs1 imm =
        .next { s with status := .faulted (.memFault .load (s.effectiveAddress rs1 imm) w) }) ∨
    ((s.effectiveAddress rs1 imm).toNat + w.bytes ≤ s.cfg.memSize ∧
      s.load w extend rd rs1 imm = s.writeAndAdvance rd
        (extend (wordOf (s.mem.bytesAt (s.effectiveAddress rs1 imm).toNat w.bytes)))) := by
  rcases Nat.lt_or_ge s.cfg.memSize ((s.effectiveAddress rs1 imm).toNat + w.bytes) with h | h
  · exact .inl ⟨h, by simp [State.load, State.memRead_outOfRange h, State.raise, State.stop]⟩
  · exact .inr ⟨h, by simp [State.load, State.memRead_inRange h]⟩

/-- All that `store` does: out of range it faults, in range it writes the low bytes. -/
theorem State.store_cases (s : State) (w : Width) (rs1 rs2 : Reg) (imm : Word) :
    (s.cfg.memSize < (s.effectiveAddress rs1 imm).toNat + w.bytes ∧
      s.store w rs1 rs2 imm =
        .next { s with status := .faulted (.memFault .store (s.effectiveAddress rs1 imm) w) }) ∨
    ((s.effectiveAddress rs1 imm).toNat + w.bytes ≤ s.cfg.memSize ∧
      ∃ t, s.store w rs1 rs2 imm = .next t ∧
        StoreEffect s t (s.effectiveAddress rs1 imm).toNat w.bytes (s.reg rs2) ∧ t.regs = s.regs ∧
        t.mem = s.mem.setBytes (s.effectiveAddress rs1 imm).toNat (bytesOf (s.reg rs2) w.bytes)) := by
  rcases Nat.lt_or_ge s.cfg.memSize ((s.effectiveAddress rs1 imm).toNat + w.bytes) with h | h
  · exact .inl ⟨h, by simp [State.store, State.memWrite_outOfRange h, State.raise, State.stop]⟩
  · let m := s.mem.setBytes (s.effectiveAddress rs1 imm).toNat (bytesOf (s.reg rs2) w.bytes)
    refine .inr ⟨h, State.advance { s with mem := m }, by simp only [State.store, State.memWrite_inRange h, m],
      ⟨fun a => ?_, fun r => rfl, rfl, rfl, rfl⟩, rfl, rfl⟩
    rw [State.advance_mem, Memory.byteAt_setBytes_bytesOf]

/-! ### The fetch and the step -/

/-- Four bytes that spell a word are read as that word. -/
theorem State.fetchWord_of_aboutToExecute {w : Word} (h : AboutToExecute s w) : s.fetchWord = .ok w := by
  obtain ⟨-, -, hsize, hb⟩ := h
  rw [State.fetchWord, State.memRead_inRange (by simpa [Width.bytes] using hsize)]
  have hbytes : s.mem.bytesAt s.pc.toNat 4 = bytesOf w 4 := by
    have := hb 0 (by omega); have := hb 1 (by omega); have := hb 2 (by omega); have := hb 3 (by omega)
    simp_all [Memory.bytesAt, bytesOf, List.range_succ, byteOf_eq_ofNat]
  rw [show Width.word.bytes = 4 from rfl, hbytes, wordOf_bytesOf]

/-- The word a step fetches is the one whose bytes stand at the pc. -/
theorem State.aboutToExecute_of_fetchWord {w : Word} (hr : s.status = .running) (he : s.atEndOfImage = false)
    (hf : s.fetchWord = .ok w) : AboutToExecute s w := by
  have he : s.pc.toNat < s.cfg.imageLen := by simpa [State.atEndOfImage] using he
  rcases Nat.lt_or_ge s.cfg.memSize (s.pc.toNat + Width.word.bytes) with h | h
  · rw [State.fetchWord, State.memRead_outOfRange h] at hf; cases hf
  · rw [State.fetchWord, State.memRead_inRange h] at hf
    have hw := Except.ok.inj hf
    refine ⟨hr, he, h, fun k hk => ?_⟩
    have hl : s.mem.bytesAt s.pc.toNat Width.word.bytes =
        [s.mem.byteAt s.pc.toNat, s.mem.byteAt (s.pc.toNat + 1), s.mem.byteAt (s.pc.toNat + 2),
          s.mem.byteAt (s.pc.toNat + 3)] := rfl
    have hn := congrArg BitVec.toNat hw
    rw [hl, toNat_wordOf_four] at hn
    have := (s.mem.byteAt s.pc.toNat).isLt; have := (s.mem.byteAt (s.pc.toNat + 1)).isLt
    have := (s.mem.byteAt (s.pc.toNat + 2)).isLt; have := (s.mem.byteAt (s.pc.toNat + 3)).isLt
    apply BitVec.eq_of_toNat_eq
    rw [← hn, BitVec.toNat_ofNat]
    have : k = 0 ∨ k = 1 ∨ k = 2 ∨ k = 3 := by omega
    rcases this with rfl | rfl | rfl | rfl <;> first | omega | (simp only [Nat.add_zero]; omega)

/-- Everything a step can do. -/
theorem step_cases (h : step s = .next t) :
    s.status = .running ∧
    ((s.cfg.imageLen ≤ s.pc.toNat ∧ t = { s with status := .halted .endOfImage }) ∨
      (s.pc.toNat < s.cfg.imageLen ∧ s.cfg.memSize < s.pc.toNat + 4 ∧
        t = { s with status := .faulted (.memFault .fetch s.pc .word) }) ∨
      (∃ w e, AboutToExecute s w ∧ decode w = .error e ∧
        t = { s with status := .faulted (.invalidEncoding s.pc w) }) ∨
      ∃ w i, AboutToExecute s w ∧ decode w = .ok i ∧ exec i s = .next t) := by
  unfold step at h
  split at h
  · cases h
  · cases h
  · next hr =>
    refine ⟨hr, ?_⟩
    split at h
    · next he =>
      exact .inl ⟨by simpa [State.atEndOfImage] using he, by cases h; rfl⟩
    · next he =>
      have he' : s.atEndOfImage = false := by simpa using he
      have hlt : s.pc.toNat < s.cfg.imageLen := by simpa [State.atEndOfImage] using he'
      split at h
      · next reason hf =>
        rcases Nat.lt_or_ge s.cfg.memSize (s.pc.toNat + Width.word.bytes) with hs | hs
        · rw [State.fetchWord, State.memRead_outOfRange hs] at hf
          cases hf
          exact .inr (.inl ⟨hlt, hs, by cases h; rfl⟩)
        · rw [State.fetchWord, State.memRead_inRange hs] at hf; cases hf
      · next w hf =>
        have ha := State.aboutToExecute_of_fetchWord hr he' hf
        split at h
        · next e hd => exact .inr (.inr (.inl ⟨w, e, ha, hd, by cases h; rfl⟩))
        · next i hd => exact .inr (.inr (.inr ⟨w, i, ha, hd, h⟩))

end Sys2Proof.Machine
end

