-- ==== Sys2Proof/Laws/PerInstr.lean ====
section
/-! SUPPORT. One statement made for every instruction: its encoding matches its row of the opcode map (30_encoding.md
R70). -/

namespace Sys2Proof.Laws.OpcodeRow

/-- The encoding of `i` matches the row of the opcode map that carries its mnemonic. -/
def Statement (i : Instr) : Prop :=
  ∃ row ∈ opcodeTable, row.1 = i.mnemonic ∧ encode i &&& row.2.2 = row.2.1

/-- A row is found by its place in the map. -/
theorem of_index {i : Instr} (k : Nat) {m : String} {mtch mask : Word}
    (hk : opcodeTable[k]? = some (m, mtch, mask)) (hm : m = i.mnemonic) (h : encode i &&& mask = mtch) :
    Statement i :=
  ⟨_, List.mem_of_getElem? hk, hm, h⟩

theorem add (rd rs1 rs2 : Reg) : Statement (.add rd rs1 rs2) :=
  of_index 0 rfl rfl ((mask_encode_r _ _ _ _ _ _).trans rfl)

theorem sub (rd rs1 rs2 : Reg) : Statement (.sub rd rs1 rs2) :=
  of_index 1 rfl rfl ((mask_encode_r _ _ _ _ _ _).trans rfl)

theorem sll (rd rs1 rs2 : Reg) : Statement (.sll rd rs1 rs2) :=
  of_index 2 rfl rfl ((mask_encode_r _ _ _ _ _ _).trans rfl)

theorem slt (rd rs1 rs2 : Reg) : Statement (.slt rd rs1 rs2) :=
  of_index 3 rfl rfl ((mask_encode_r _ _ _ _ _ _).trans rfl)

theorem sltu (rd rs1 rs2 : Reg) : Statement (.sltu rd rs1 rs2) :=
  of_index 4 rfl rfl ((mask_encode_r _ _ _ _ _ _).trans rfl)

theorem xor (rd rs1 rs2 : Reg) : Statement (.xor rd rs1 rs2) :=
  of_index 5 rfl rfl ((mask_encode_r _ _ _ _ _ _).trans rfl)

theorem srl (rd rs1 rs2 : Reg) : Statement (.srl rd rs1 rs2) :=
  of_index 6 rfl rfl ((mask_encode_r _ _ _ _ _ _).trans rfl)

theorem sra (rd rs1 rs2 : Reg) : Statement (.sra rd rs1 rs2) :=
  of_index 7 rfl rfl ((mask_encode_r _ _ _ _ _ _).trans rfl)

theorem or (rd rs1 rs2 : Reg) : Statement (.or rd rs1 rs2) :=
  of_index 8 rfl rfl ((mask_encode_r _ _ _ _ _ _).trans rfl)

theorem and (rd rs1 rs2 : Reg) : Statement (.and rd rs1 rs2) :=
  of_index 9 rfl rfl ((mask_encode_r _ _ _ _ _ _).trans rfl)

theorem addi (rd rs1 : Reg) (imm : Word) : Statement (.addi rd rs1 imm) :=
  of_index 10 rfl rfl ((mask_encode_i _ _ _ _ _).trans rfl)

theorem slli (rd rs1 : Reg) (shamt : BitVec 5) : Statement (.slli rd rs1 shamt) :=
  of_index 11 rfl rfl ((mask_encode_shift _ _ _ _ _ _).trans rfl)

theorem slti (rd rs1 : Reg) (imm : Word) : Statement (.slti rd rs1 imm) :=
  of_index 12 rfl rfl ((mask_encode_i _ _ _ _ _).trans rfl)

theorem sltiu (rd rs1 : Reg) (imm : Word) : Statement (.sltiu rd rs1 imm) :=
  of_index 13 rfl rfl ((mask_encode_i _ _ _ _ _).trans rfl)

theorem xori (rd rs1 : Reg) (imm : Word) : Statement (.xori rd rs1 imm) :=
  of_index 14 rfl rfl ((mask_encode_i _ _ _ _ _).trans rfl)

theorem srli (rd rs1 : Reg) (shamt : BitVec 5) : Statement (.srli rd rs1 shamt) :=
  of_index 15 rfl rfl ((mask_encode_shift _ _ _ _ _ _).trans rfl)

theorem srai (rd rs1 : Reg) (shamt : BitVec 5) : Statement (.srai rd rs1 shamt) :=
  of_index 16 rfl rfl ((mask_encode_shift _ _ _ _ _ _).trans rfl)

theorem ori (rd rs1 : Reg) (imm : Word) : Statement (.ori rd rs1 imm) :=
  of_index 17 rfl rfl ((mask_encode_i _ _ _ _ _).trans rfl)

theorem andi (rd rs1 : Reg) (imm : Word) : Statement (.andi rd rs1 imm) :=
  of_index 18 rfl rfl ((mask_encode_i _ _ _ _ _).trans rfl)

theorem lb (rd rs1 : Reg) (imm : Word) : Statement (.lb rd rs1 imm) :=
  of_index 19 rfl rfl ((mask_encode_i _ _ _ _ _).trans rfl)

theorem lh (rd rs1 : Reg) (imm : Word) : Statement (.lh rd rs1 imm) :=
  of_index 20 rfl rfl ((mask_encode_i _ _ _ _ _).trans rfl)

theorem lw (rd rs1 : Reg) (imm : Word) : Statement (.lw rd rs1 imm) :=
  of_index 21 rfl rfl ((mask_encode_i _ _ _ _ _).trans rfl)

theorem lbu (rd rs1 : Reg) (imm : Word) : Statement (.lbu rd rs1 imm) :=
  of_index 22 rfl rfl ((mask_encode_i _ _ _ _ _).trans rfl)

theorem lhu (rd rs1 : Reg) (imm : Word) : Statement (.lhu rd rs1 imm) :=
  of_index 23 rfl rfl ((mask_encode_i _ _ _ _ _).trans rfl)

theorem jalr (rd rs1 : Reg) (imm : Word) : Statement (.jalr rd rs1 imm) :=
  of_index 24 rfl rfl ((mask_encode_i _ _ _ _ _).trans rfl)

theorem sb (rs1 rs2 : Reg) (imm : Word) : Statement (.sb rs1 rs2 imm) :=
  of_index 26 rfl rfl ((mask_encode_s _ _ _ _ _).trans rfl)

theorem sh (rs1 rs2 : Reg) (imm : Word) : Statement (.sh rs1 rs2 imm) :=
  of_index 27 rfl rfl ((mask_encode_s _ _ _ _ _).trans rfl)

theorem sw (rs1 rs2 : Reg) (imm : Word) : Statement (.sw rs1 rs2 imm) :=
  of_index 28 rfl rfl ((mask_encode_s _ _ _ _ _).trans rfl)

theorem lui (rd : Reg) (imm : Word) : Statement (.lui rd imm) :=
  of_index 29 rfl rfl ((mask_encode_u _ _ _).trans rfl)

theorem auipc (rd : Reg) (imm : Word) : Statement (.auipc rd imm) :=
  of_index 30 rfl rfl ((mask_encode_u _ _ _).trans rfl)

theorem beq (rs1 rs2 : Reg) (imm : Word) : Statement (.beq rs1 rs2 imm) :=
  of_index 31 rfl rfl ((mask_encode_b _ _ _ _ _).trans rfl)

theorem bne (rs1 rs2 : Reg) (imm : Word) : Statement (.bne rs1 rs2 imm) :=
  of_index 32 rfl rfl ((mask_encode_b _ _ _ _ _).trans rfl)

theorem blt (rs1 rs2 : Reg) (imm : Word) : Statement (.blt rs1 rs2 imm) :=
  of_index 33 rfl rfl ((mask_encode_b _ _ _ _ _).trans rfl)

theorem bge (rs1 rs2 : Reg) (imm : Word) : Statement (.bge rs1 rs2 imm) :=
  of_index 34 rfl rfl ((mask_encode_b _ _ _ _ _).trans rfl)

theorem bltu (rs1 rs2 : Reg) (imm : Word) : Statement (.bltu rs1 rs2 imm) :=
  of_index 35 rfl rfl ((mask_encode_b _ _ _ _ _).trans rfl)

theorem bgeu (rs1 rs2 : Reg) (imm : Word) : Statement (.bgeu rs1 rs2 imm) :=
  of_index 36 rfl rfl ((mask_encode_b _ _ _ _ _).trans rfl)

theorem jal (rd : Reg) (imm : Word) : Statement (.jal rd imm) :=
  of_index 37 rfl rfl ((mask_encode_j _ _ _).trans rfl)

theorem ecall : Statement .ecall :=
  of_index 25 rfl rfl (by decide)

end Sys2Proof.Laws.OpcodeRow
end

