-- ==== Sys2Proof/Tests/Slice0.lean ====
section
/-! SUPPORT. Tests and witnesses. The expected results come from the spec: the examples of the instruction rules, the
worked decodings of 30_encoding.md and the vectors of 95_test_vectors.md. -/

namespace Sys2Proof.Tests

open Sys2Proof.Machine

/-! ## The WellFormed smoke test: one ill-formed term for each check, and the ends of each range -/

theorem test_imm12_too_large : (Instr.addi 1 2 0x00000800#32).wellFormed = false := by decide
theorem test_imm12_too_small : (Instr.sw 1 2 0xFFFFF7FF#32).wellFormed = false := by decide
theorem test_imm12_ends : (Instr.lw 1 2 0x000007FF#32).wellFormed = true ∧
    (Instr.jalr 1 2 0xFFFFF800#32).wellFormed = true := by decide
theorem test_immB_too_large : (Instr.beq 1 2 0x00001000#32).wellFormed = false := by decide
theorem test_immB_too_small : (Instr.bge 1 2 0xFFFFEFFE#32).wellFormed = false := by decide
theorem test_immB_odd : (Instr.bne 1 2 0x00000003#32).wellFormed = false := by decide
theorem test_immB_ends : (Instr.bltu 1 2 0x00000FFE#32).wellFormed = true ∧
    (Instr.bgeu 1 2 0xFFFFF000#32).wellFormed = true := by decide
theorem test_immU_low_bits : (Instr.lui 1 0x12345001#32).wellFormed = false ∧
    (Instr.auipc 1 0x00000800#32).wellFormed = false := by decide
theorem test_immU_ends : (Instr.lui 1 0xFFFFF000#32).wellFormed = true := by decide
theorem test_immJ_too_large : (Instr.jal 1 0x00100000#32).wellFormed = false := by decide
theorem test_immJ_too_small : (Instr.jal 1 0xFFEFFFFE#32).wellFormed = false := by decide
theorem test_immJ_odd : (Instr.jal 1 0x00000007#32).wellFormed = false := by decide
theorem test_immJ_ends : (Instr.jal 1 0x000FFFFE#32).wellFormed = true ∧
    (Instr.jal 1 0xFFF00000#32).wellFormed = true := by decide

/-! ## Decoding: each constructor's word, field by field as its format has them (R64), opcode last

R: funct7, rs2, rs1, funct3, rd. I: imm[11:0], rs1, funct3, rd. S: imm[11:5], rs2, rs1, funct3, imm[4:0].
B: imm[12], imm[10:5], rs2, rs1, funct3, imm[4:1], imm[11]. U: imm[31:12], rd. J: imm[20], imm[10:1], imm[11],
imm[19:12], rd. -/

theorem test_decode_add : decode 0b0000000_00010_00001_000_00011_0110011#32 = .ok (.add 3 1 2) := by decide
theorem test_decode_sub : decode 0b0100000_00010_00001_000_00011_0110011#32 = .ok (.sub 3 1 2) := by decide
theorem test_decode_sll : decode 0b0000000_00010_00001_001_00011_0110011#32 = .ok (.sll 3 1 2) := by decide
theorem test_decode_slt : decode 0b0000000_00010_00001_010_00011_0110011#32 = .ok (.slt 3 1 2) := by decide
theorem test_decode_sltu : decode 0b0000000_00010_00001_011_00011_0110011#32 = .ok (.sltu 3 1 2) := by decide
theorem test_decode_xor : decode 0b0000000_00010_00001_100_00011_0110011#32 = .ok (.xor 3 1 2) := by decide
theorem test_decode_srl : decode 0b0000000_00010_00001_101_00011_0110011#32 = .ok (.srl 3 1 2) := by decide
theorem test_decode_sra : decode 0b0100000_00010_00001_101_00011_0110011#32 = .ok (.sra 3 1 2) := by decide
theorem test_decode_or : decode 0b0000000_00010_00001_110_00011_0110011#32 = .ok (.or 3 1 2) := by decide
theorem test_decode_and : decode 0b0000000_00010_00001_111_00011_0110011#32 = .ok (.and 3 1 2) := by decide
theorem test_decode_addi : decode 0b000000000101_00000_000_00001_0010011#32 = .ok (.addi 1 0 5#32) := by decide
theorem test_decode_slli : decode 0b0000000_11111_00001_001_00011_0010011#32 = .ok (.slli 3 1 31#5) := by decide
theorem test_decode_slti : decode 0b000000000000_00001_010_00011_0010011#32 = .ok (.slti 3 1 0#32) := by decide
theorem test_decode_sltiu :
    decode 0b111111111111_00001_011_00011_0010011#32 = .ok (.sltiu 3 1 0xFFFFFFFF#32) := by decide
theorem test_decode_xori :
    decode 0b111111111111_00001_100_00011_0010011#32 = .ok (.xori 3 1 0xFFFFFFFF#32) := by decide
theorem test_decode_srli : decode 0b0000000_00001_00001_101_00011_0010011#32 = .ok (.srli 3 1 1#5) := by decide
theorem test_decode_srai : decode 0b0100000_11111_00001_101_00011_0010011#32 = .ok (.srai 3 1 31#5) := by decide
theorem test_decode_ori : decode 0b011111111111_00001_110_00011_0010011#32 = .ok (.ori 3 1 0x000007FF#32) := by decide
theorem test_decode_andi :
    decode 0b111111110000_00001_111_00011_0010011#32 = .ok (.andi 3 1 0xFFFFFFF0#32) := by decide
theorem test_decode_lb : decode 0b000000000010_00001_000_00011_0000011#32 = .ok (.lb 3 1 2#32) := by decide
theorem test_decode_lh : decode 0b000000000001_00001_001_00011_0000011#32 = .ok (.lh 3 1 1#32) := by decide
theorem test_decode_lw : decode 0b000000000100_00001_010_00011_0000011#32 = .ok (.lw 3 1 4#32) := by decide
theorem test_decode_lbu : decode 0b111111111111_01000_100_00111_0000011#32 = .ok (.lbu 7 8 0xFFFFFFFF#32) := by decide
theorem test_decode_lhu : decode 0b000000000011_00001_101_00011_0000011#32 = .ok (.lhu 3 1 3#32) := by decide
theorem test_decode_jalr :
    decode 0b111111111101_00101_000_00001_1100111#32 = .ok (.jalr 1 5 0xFFFFFFFD#32) := by decide
theorem test_decode_sb :
    decode 0b1111111_00010_00001_000_11111_0100011#32 = .ok (.sb 1 2 0xFFFFFFFF#32) := by decide
theorem test_decode_sh : decode 0b0000000_00010_00001_001_00011_0100011#32 = .ok (.sh 1 2 3#32) := by decide
theorem test_decode_sw :
    decode 0b1000000_00011_00010_010_00000_0100011#32 = .ok (.sw 2 3 0xFFFFF800#32) := by decide
theorem test_decode_lui : decode 0b00010010001101000101_00101_0110111#32 = .ok (.lui 5 0x12345000#32) := by decide
theorem test_decode_auipc :
    decode 0b00010010001101000101_01010_0010111#32 = .ok (.auipc 10 0x12345000#32) := by decide
theorem test_decode_beq : decode 0b0_000000_00010_00001_000_1000_0_1100011#32 = .ok (.beq 1 2 16#32) := by decide
theorem test_decode_bne : decode 0b0_000000_00010_00001_001_1000_0_1100011#32 = .ok (.bne 1 2 16#32) := by decide
theorem test_decode_blt : decode 0b0_000000_00010_00001_100_1000_0_1100011#32 = .ok (.blt 1 2 16#32) := by decide
theorem test_decode_bge : decode 0b0_000000_00010_00001_101_1000_0_1100011#32 = .ok (.bge 1 2 16#32) := by decide
theorem test_decode_bltu : decode 0b0_000000_00010_00001_110_1000_0_1100011#32 = .ok (.bltu 1 2 16#32) := by decide
theorem test_decode_bgeu :
    decode 0b0_000000_11111_11110_111_0000_1_1100011#32 = .ok (.bgeu 30 31 0x00000800#32) := by decide
theorem test_decode_jal :
    decode 0b1_1111111100_1_11111111_00001_1101111#32 = .ok (.jal 1 0xFFFFFFF8#32) := by decide
theorem test_decode_ecall : decode 0b000000000000_00000_000_00000_1110011#32 = .ok .ecall := by decide

/-! Words that are no instruction (R72, R74, R207): the all-zero and the all-one word, a multiply, an EBREAK, a
shift-immediate and a JALR, load, store and branch with an unnamed selector. -/

theorem test_decode_unknown : decode 0x00000000#32 = .error (.unknownClass 0x00#7) ∧
    decode 0xFFFFFFFF#32 = .error (.unknownClass 0x7F#7) := by decide
theorem test_decode_multiply : decode 0x022081B3#32 = .error (.funct7 0b000#3 0x01#7) := by decide
theorem test_decode_ebreak : decode 0x00100073#32 = .error .system := by decide
theorem test_decode_bad_shift : decode 0x40009193#32 = .error (.shiftImm 0b001#3 0x20#7) ∧
    decode 0x0200D193#32 = .error (.shiftImm 0b101#3 0x01#7) := by decide
theorem test_decode_bad_funct3 : decode 0x00001067#32 = .error (.funct3 0x67#7 0b001#3) ∧
    decode 0x00003003#32 = .error (.funct3 0x03#7 0b011#3) ∧ decode 0x00003023#32 = .error (.funct3 0x23#7 0b011#3) ∧
    decode 0x00002063#32 = .error (.funct3 0x63#7 0b010#3) := by decide
theorem test_decode_truncated : decodeBytes [0x13#8, 0x00#8, 0x00#8] = .error .truncated := by decide

/-- An instruction's bytes stand in memory least significant first, and the rest of the list follows (R33). -/
theorem test_decode_bytes :
    decodeBytes [0x93#8, 0x00#8, 0x50#8, 0x00#8, 0x73#8] = .ok (.addi 1 0 5#32, [0x73#8]) := by decide

theorem test_encode_bytes : encodeBytes (.addi 1 0 5#32) = [0x93#8, 0x00#8, 0x50#8, 0x00#8] := by decide

/-! ## One step of each instruction, on the examples of its rule -/

/-- A small machine: x1 and x2 as given, the pc as given, 8 bytes of data at 0x100 (the memory of the examples of
43_load.md), 0x400 bytes of memory, all of them image. -/
def machine (x1 x2 pc : Word) : State :=
  { (State.reset.setReg 1 x1).setReg 2 x2 with
    pc := pc
    mem := [(0x100, 0x80#8), (0x101, 0xFF#8), (0x102, 0x7F#8), (0x103, 0x01#8), (0x104, 0xEF#8), (0x105, 0xBE#8),
      (0x106, 0xAD#8), (0x107, 0xDE#8)]
    cfg := { memSize := 0x400, imageLen := 0x400 } }

/-- What `f` sees in the next state, if there is one. -/
def sees {α : Type} (r : Result) (f : State → α) : Option α :=
  match r with
  | .next t => some (f t)
  | .fault _ => none
  | .refused _ => none

/-- x3 and the pc after an instruction. -/
def x3AndPc (i : Instr) (s : State) : Option (Word × Word) := sees (exec i s) fun t => (t.reg 3, t.pc)

/-- x1 and the pc after an instruction. -/
def x1AndPc (i : Instr) (s : State) : Option (Word × Word) := sees (exec i s) fun t => (t.reg 1, t.pc)

/-- The memory after an instruction. -/
def memAfter (i : Instr) (s : State) : Option Memory := sees (exec i s) fun t => t.mem.drop 8

/-- The status and the pc after an instruction. -/
def statusAndPc (i : Instr) (s : State) : Option (Status × Word) := sees (exec i s) fun t => (t.status, t.pc)

theorem test_add : x3AndPc (.add 3 1 2) (machine 5 3 0x100) = some (8, 0x104) := by decide
theorem test_add_wraps : x3AndPc (.add 3 1 2) (machine 0xFFFFFFFF 1 0x100) = some (0, 0x104) := by decide
theorem test_sub : x3AndPc (.sub 3 1 2) (machine 5 3 0x100) = some (2, 0x104) := by decide
theorem test_sub_wraps : x3AndPc (.sub 3 1 2) (machine 3 5 0x100) = some (0xFFFFFFFE, 0x104) := by decide
theorem test_sll : x3AndPc (.sll 3 1 2) (machine 0x80000001 0x21 0x100) = some (2, 0x104) := by decide
theorem test_slt : x3AndPc (.slt 3 1 2) (machine 0xFFFFFFFF 1 0x100) = some (1, 0x104) := by decide
theorem test_slt_extremes : x3AndPc (.slt 3 1 2) (machine 0x80000000 0x7FFFFFFF 0x100) = some (1, 0x104) := by decide
theorem test_sltu : x3AndPc (.sltu 3 1 2) (machine 1 0xFFFFFFFF 0x100) = some (1, 0x104) := by decide
theorem test_sltu_not : x3AndPc (.sltu 3 1 2) (machine 0xFFFFFFFF 1 0x100) = some (0, 0x104) := by decide
theorem test_xor :
    x3AndPc (.xor 3 1 2) (machine 0xFF00FF00 0x0FF00FF0 0x100) = some (0xF0F0F0F0, 0x104) := by decide
theorem test_srl : x3AndPc (.srl 3 1 2) (machine 0xFFFFFFFF 4 0x100) = some (0x0FFFFFFF, 0x104) := by decide
theorem test_srl_by_32 : x3AndPc (.srl 3 1 2) (machine 0x80000000 32 0x100) = some (0x80000000, 0x104) := by decide
theorem test_sra : x3AndPc (.sra 3 1 2) (machine 0xF0000000 4 0x100) = some (0xFF000000, 0x104) := by decide
theorem test_sra_positive : x3AndPc (.sra 3 1 2) (machine 0x7FFFFFFF 4 0x100) = some (0x07FFFFFF, 0x104) := by decide
theorem test_or : x3AndPc (.or 3 1 2) (machine 0xFF00FF00 0x0FF00FF0 0x100) = some (0xFFF0FFF0, 0x104) := by decide
theorem test_and : x3AndPc (.and 3 1 2) (machine 0xFF00FF00 0x0FF00FF0 0x100) = some (0x0F000F00, 0x104) := by decide
theorem test_addi : x1AndPc (.addi 1 0 5) (machine 0 0 0) = some (5, 4) := by decide
theorem test_addi_to_x0 :
    sees (exec (.addi 0 1 5) (machine 7 0 0x100)) (fun t => (t.reg 0, t.regs[0], t.pc)) = some (0, 0, 0x104) := by decide
theorem test_slli : x3AndPc (.slli 3 1 31) (machine 1 0 0x100) = some (0x80000000, 0x104) := by decide
theorem test_slti : x3AndPc (.slti 3 1 0) (machine 0xFFFFFFFF 0 0x100) = some (1, 0x104) := by decide
theorem test_slti_not : x3AndPc (.slti 3 1 0xFFFFFFFF) (machine 0 0 0x100) = some (0, 0x104) := by decide
theorem test_sltiu : x3AndPc (.sltiu 3 1 0xFFFFFFFF) (machine 5 0 0x100) = some (1, 0x104) := by decide
theorem test_xori : x3AndPc (.xori 3 1 0xFFFFFFFF) (machine 0x12345678 0 0x100) = some (0xEDCBA987, 0x104) := by decide
theorem test_srli : x3AndPc (.srli 3 1 1) (machine 0xFFFFFFFF 0 0x100) = some (0x7FFFFFFF, 0x104) := by decide
theorem test_srai : x3AndPc (.srai 3 1 31) (machine 0x80000000 0 0x100) = some (0xFFFFFFFF, 0x104) := by decide
theorem test_ori : x3AndPc (.ori 3 1 0xFFFFF800) (machine 0x12345678 0 0x100) = some (0xFFFFFE78, 0x104) := by decide
theorem test_andi : x3AndPc (.andi 3 1 0xFFFFFFF0) (machine 0x12345678 0 0x100) = some (0x12345670, 0x104) := by decide
theorem test_lb : x3AndPc (.lb 3 1 0) (machine 0x100 0 0x200) = some (0xFFFFFF80, 0x204) := by decide
theorem test_lb_positive : x3AndPc (.lb 3 1 2) (machine 0x100 0 0x200) = some (0x0000007F, 0x204) := by decide
theorem test_lh : x3AndPc (.lh 3 1 0) (machine 0x100 0 0x200) = some (0xFFFFFF80, 0x204) := by decide
theorem test_lh_misaligned : x3AndPc (.lh 3 1 1) (machine 0x100 0 0x200) = some (0x00007FFF, 0x204) := by decide
theorem test_lw : x3AndPc (.lw 3 1 4) (machine 0x100 0 0x200) = some (0xDEADBEEF, 0x204) := by decide
theorem test_lw_misaligned : x3AndPc (.lw 3 1 1) (machine 0x100 0 0x200) = some (0xEF017FFF, 0x204) := by decide
theorem test_lbu : x3AndPc (.lbu 3 1 0) (machine 0x100 0 0x200) = some (0x00000080, 0x204) := by decide
theorem test_lhu : x3AndPc (.lhu 3 1 0) (machine 0x100 0 0x200) = some (0x0000FF80, 0x204) := by decide
theorem test_lhu_misaligned : x3AndPc (.lhu 3 1 3) (machine 0x100 0 0x200) = some (0x0000EF01, 0x204) := by decide
theorem test_jalr_clears_bit_0 : x1AndPc (.jalr 1 2 0xFFFFFFFD) (machine 0 0x1000 0x100) = some (0x104, 0x0FFC) := by
  decide
theorem test_jalr_rd_is_rs1 : x1AndPc (.jalr 1 1 0) (machine 0x2000 0 0x100) = some (0x104, 0x2000) := by decide
theorem test_sb : memAfter (.sb 1 2 0xFFFFFFFF) (machine 0x200 0xFF 0x100) = some [(0x1FF, 0xFF#8)] := by decide
theorem test_sh :
    memAfter (.sh 1 2 3) (machine 0x200 0xAABBCCDD 0x100) = some [(0x203, 0xDD#8), (0x204, 0xCC#8)] := by decide
theorem test_sw : memAfter (.sw 1 2 0) (machine 0x200 0x12345678 0x100) =
    some [(0x200, 0x78#8), (0x201, 0x56#8), (0x202, 0x34#8), (0x203, 0x12#8)] := by decide
theorem test_lui : x3AndPc (.lui 3 0xFFFFF000) (machine 0 0 0x100) = some (0xFFFFF000, 0x104) := by decide
theorem test_auipc : x3AndPc (.auipc 3 0x12345000) (machine 0 0 0x100) = some (0x12345100, 0x104) := by decide
theorem test_auipc_wraps : x3AndPc (.auipc 3 0xFFFFF000) (machine 0 0 0x2000) = some (0x00001000, 0x2004) := by decide
theorem test_beq : x1AndPc (.beq 1 2 16) (machine 5 5 0x100) = some (5, 0x110) ∧
    x1AndPc (.beq 1 2 16) (machine 5 3 0x100) = some (5, 0x104) := by decide
theorem test_bne : x1AndPc (.bne 1 2 16) (machine 5 3 0x100) = some (5, 0x110) ∧
    x1AndPc (.bne 1 2 16) (machine 5 5 0x100) = some (5, 0x104) := by decide
theorem test_blt : x1AndPc (.blt 1 2 16) (machine 0xFFFFFFFF 1 0x100) = some (0xFFFFFFFF, 0x110) ∧
    x1AndPc (.blt 1 2 16) (machine 1 0xFFFFFFFF 0x100) = some (1, 0x104) := by decide
theorem test_bge : x1AndPc (.bge 1 2 16) (machine 5 5 0x100) = some (5, 0x110) ∧
    x1AndPc (.bge 1 2 16) (machine 0xFFFFFFFF 1 0x100) = some (0xFFFFFFFF, 0x104) := by decide
theorem test_bltu : x1AndPc (.bltu 1 2 16) (machine 1 0xFFFFFFFF 0x100) = some (1, 0x110) ∧
    x1AndPc (.bltu 1 2 16) (machine 0xFFFFFFFF 1 0x100) = some (0xFFFFFFFF, 0x104) := by decide
theorem test_bgeu : x1AndPc (.bgeu 1 2 16) (machine 0xFFFFFFFF 1 0x100) = some (0xFFFFFFFF, 0x110) ∧
    x1AndPc (.bgeu 1 2 16) (machine 1 0xFFFFFFFF 0x100) = some (1, 0x104) := by decide
theorem test_branch_back_wraps :
    x1AndPc (.beq 0 0 0xFFFFFEFC) (machine 0 0 0x100) = some (0, 0xFFFFFFFC) := by decide
theorem test_jal : x1AndPc (.jal 1 8) (machine 0 0 0x100) = some (0x104, 0x108) := by decide
theorem test_jal_back : x1AndPc (.jal 1 0xFFFFFFF8) (machine 0 0 0x100) = some (0x104, 0x0F8) := by decide
theorem test_ecall : statusAndPc .ecall (machine 5 0 0x100) = some (.halted .ecall, 0x100) := by decide

/-! ## The ends of a run, and the edges of the memory -/

/-- From reset, with no image, the first step is the end of the image. -/
theorem test_reset_step :
    sees (step State.reset) (fun t => t) = some { State.reset with status := .halted .endOfImage } := by decide
theorem test_no_step_after_halt :
    sees (step { State.reset with status := .halted .ecall }) (fun t => t.pc) = none := by decide
theorem test_placed_word_runs :
    sees (step (State.reset.withFetchWord 32 0x00500093)) (fun t => (t.reg 1, t.reg 0, t.pc)) = some (5, 0, 4) := by
  decide
theorem test_load_at_the_edge : statusAndPc (.lw 3 1 0) (machine 0x3FC 0 0x100) = some (.running, 0x104) ∧
    statusAndPc (.lw 3 1 0) (machine 0x3FD 0 0x100) =
      some (.faulted (.memFault .load 0x3FD .word), 0x100) := by decide
theorem test_load_to_x0_faults :
    statusAndPc (.lb 0 1 0) (machine 0x400 0 0x100) = some (.faulted (.memFault .load 0x400 .byte), 0x100) := by decide
theorem test_store_at_the_edge : statusAndPc (.sh 1 2 0) (machine 0x3FE 7 0x100) = some (.running, 0x104) ∧
    statusAndPc (.sh 1 2 0) (machine 0x3FF 7 0x100) = some (.faulted (.memFault .store 0x3FF .half), 0x100) ∧
    memAfter (.sh 1 2 0) (machine 0x3FF 7 0x100) = some [] := by decide
/-- The sum of the bounds test does not wrap. -/
theorem test_store_at_the_top :
    statusAndPc (.sw 1 2 0) (machine 0xFFFFFFFE 7 0x100) =
      some (.faulted (.memFault .store 0xFFFFFFFE .word), 0x100) := by decide

/-! ## Witnesses: for each statement with hypotheses, a case that meets all of them together -/

/-- A machine with one word at its pc. -/
def atWord (w : Word) : State := (machine 0x100 7 0x200).placeWordAtPc w

theorem about_atWord (w : Word)
    (h : ∀ k, k < 4 → (atWord w).mem.byteAt (0x200 + k) = BitVec.ofNat 8 (w.toNat / 2 ^ (8 * k))) :
    AboutToExecute (atWord w) w :=
  ⟨rfl, show 0x200 < 0x400 by decide, show 0x204 ≤ 0x400 by decide, h⟩

theorem witness_DecoderExtractsFieldsAtFixedBits :
    decodeClass 0x402081B3#32 = .r 0x33#7 3 1 2 0b000#3 0x20#7 ∧
    decodeClass 0xFFF44383#32 = .i 0x03#7 7 8 0b100#3 0xFFFFFFFF#32 ∧
    decodeClass 0x80312023#32 = .s 0x23#7 2 3 0b010#3 0xFFFFF800#32 ∧
    decodeClass 0x01FF70E3#32 = .b 0x63#7 30 31 0b111#3 0x00000800#32 ∧
    decodeClass 0x12345517#32 = .u 0x17#7 10 0x12345000#32 ∧
    decodeClass 0x800000EF#32 = .j 0x6F#7 1 0xFFF00000#32 ∧
    decodeClass 0xFFFFFFFF#32 = .unknown 0x7F#7 := by decide

theorem witness_DecoderReconstructsSignedImmediates :
    decodeClass 0x7FF00013#32 = .i 0x13#7 0 0 0b000#3 0x000007FF#32 ∧
    decodeClass 0x7E000FA3#32 = .s 0x23#7 0 0 0b000#3 0x000007FF#32 ∧
    decodeClass 0x7E000FE3#32 = .b 0x63#7 0 0 0b000#3 0x00000FFE#32 ∧
    decodeClass 0x7FFFF06F#32 = .j 0x6F#7 0 0x000FFFFE#32 := by decide

theorem witness_DecoderPlacesTheUpperImmediate :
    decodeClass 0xFFFFF2B7#32 = .u 0x37#7 5 0xFFFFF000#32 ∧ (0xFFFFF000#32).toNat % 4096 = 0 := by decide

/-- The two ends of the width, and one word of each sign-extended class with a negative immediate. -/
theorem witness_SignExtensionIsExact :
    (0 < 1 ∧ 1 ≤ 32 ∧ sext 1#1 = 0xFFFFFFFF#32) ∧ (0 < 32 ∧ 32 ≤ 32 ∧ sext 5#32 = 5#32) ∧
    decodeClass 0x80000013#32 = .i 0x13#7 0 0 0b000#3 0xFFFFF800#32 ∧
    decodeClass 0x80000023#32 = .s 0x23#7 0 0 0b000#3 0xFFFFF800#32 ∧
    decodeClass 0x80000063#32 = .b 0x63#7 0 0 0b000#3 0xFFFFF000#32 ∧
    decodeClass 0x8000006F#32 = .j 0x6F#7 0 0xFFF00000#32 := by decide

theorem witness_DecodeOfEncodeIsTheInstruction : (Instr.bgeu 31 1 0xFFFFF000#32).wellFormed = true := by decide
theorem witness_EncodeOfDecodeIsTheWord : decode 0x41F0D193#32 = .ok (.srai 3 1 31#5) := by decide
theorem witness_DecoderDropsNoBitOfAClassifiedWord :
    (decodeClass 0x00100073#32).tag ≠ .Unknown ∧ (decodeClass 0xFFFFFF80#32).tag = .Unknown := by decide

/-- Every row of the opcode map has a word, so every pattern hypothesis of the instruction statements is met. -/
theorem witness_patterns : ∀ row ∈ opcodeTable, row.2.1 &&& row.2.2 = row.2.1 := by decide
theorem witness_DecodeAgreesWithTheOpcodeMap :
    (0 < opcodeTable.length) ∧ 0x00000033#32 &&& opcodeTable[0].2.2 = opcodeTable[0].2.1 := by decide
/-- A right shift-immediate whose upper bits are neither 0x00 nor 0x20. -/
theorem witness_ImmediateShiftsEncodingAndResult :
    0xFE005013#32 &&& 0x0000707F#32 = 0x00005013#32 ∧ (0xFE005013#32).toNat / 2 ^ 25 ≠ 0x00 ∧
      (0xFE005013#32).toNat / 2 ^ 25 ≠ 0x20 := by decide

theorem witness_StepRunsTheDecodedInstruction :
    AboutToExecute (atWord 0x00500093#32) 0x00500093#32 ∧ decode 0x00500093#32 = .ok (.addi 1 0 5#32) :=
  ⟨about_atWord _ (by decide), by decide⟩
theorem witness_EcallHaltsAndChangesNothingElse : AboutToExecute (atWord 0x00000073#32) 0x00000073#32 :=
  about_atWord _ (by decide)
/-- The end of the image itself, and the far end of the address space. -/
theorem witness_EndOfImageEndsTheRun :
    ((machine 0 0 0x400).status = .running ∧ (machine 0 0 0x400).cfg.imageLen ≤ (machine 0 0 0x400).pc.toNat) ∧
    (machine 0 0 0xFFFFFFFC).status = .running ∧
      (machine 0 0 0xFFFFFFFC).cfg.imageLen ≤ (machine 0 0 0xFFFFFFFC).pc.toNat := by decide
/-- An image of 0x400 bytes, a pc two bytes below its end. -/
theorem witness_FetchOutOfRangeFaults :
    (machine 0 0 0x3FE).status = .running ∧ (machine 0 0 0x3FE).pc.toNat < (machine 0 0 0x3FE).cfg.imageLen ∧
      (machine 0 0 0x3FE).cfg.memSize < (machine 0 0 0x3FE).pc.toNat + 4 := by decide
theorem witness_IllegalWordStopsTheRun :
    AboutToExecute (atWord 0x00100073#32) 0x00100073#32 ∧
      ∀ row ∈ opcodeTable, 0x00100073#32 &&& row.2.2 ≠ row.2.1 :=
  ⟨about_atWord _ (by decide), by decide⟩
theorem witness_StepExistsExactlyWhenRunning :
    State.reset.status = .running ∧ ({ State.reset with status := .halted .ecall } : State).status = .halted .ecall ∧
      ({ State.reset with status := .faulted (.invalidEncoding 0 0) } : State).status =
        .faulted (.invalidEncoding 0 0) := by decide

/-- The last address a byte, a halfword and a word can be read from. -/
theorem witness_LoadsEncodingAndResult :
    ((machine 0x3FF 0 0).reg 1 + 0#32).toNat + 1 ≤ (machine 0x3FF 0 0).cfg.memSize ∧
    ((machine 0x3FE 0 0).reg 1 + 0#32).toNat + 2 ≤ (machine 0x3FE 0 0).cfg.memSize ∧
    ((machine 0x3FC 0 0).reg 1 + 0#32).toNat + 4 ≤ (machine 0x3FC 0 0).cfg.memSize := by decide
/-- The first address each of them cannot be read from. -/
theorem witness_LoadsOutOfRangeFault :
    (machine 0x400 0 0).cfg.memSize < ((machine 0x400 0 0).reg 1 + 0#32).toNat + 1 ∧
    (machine 0x3FF 0 0).cfg.memSize < ((machine 0x3FF 0 0).reg 1 + 0#32).toNat + 2 ∧
    (machine 0x3FD 0 0).cfg.memSize < ((machine 0x3FD 0 0).reg 1 + 0#32).toNat + 4 := by decide
theorem witness_StoresEncodingAndResult :
    ((machine 0x3FF 0 0).effectiveAddress 1 0).toNat + 1 ≤ (machine 0x3FF 0 0).cfg.memSize ∧
    ((machine 0x3FE 0 0).effectiveAddress 1 0).toNat + 2 ≤ (machine 0x3FE 0 0).cfg.memSize ∧
    ((machine 0x3FC 0 0).effectiveAddress 1 0).toNat + 4 ≤ (machine 0x3FC 0 0).cfg.memSize := by decide
theorem witness_StoresOutOfRangeFault :
    (machine 0x400 0 0).cfg.memSize < ((machine 0x400 0 0).reg 1 + 0#32).toNat + 1 ∧
    (machine 0x3FF 0 0).cfg.memSize < ((machine 0x3FF 0 0).reg 1 + 0#32).toNat + 2 ∧
    (machine 0x3FD 0 0).cfg.memSize < ((machine 0x3FD 0 0).reg 1 + 0#32).toNat + 4 := by decide

/-- A next state of a load into x0, of one into another register, and of one that faults. -/
theorem witness_RegisterZeroIsHardwired :
    sees (exec (.lw 0 1 0) (machine 0x100 0 0x200)) (fun t => t.pc) = some 0x204 ∧
    sees (exec (.lw 3 1 0) (machine 0x100 0 0x200)) (fun t => t.pc) = some 0x204 ∧
    sees (exec (.lw 3 1 0) (machine 0x400 0 0x200)) (fun t => t.pc) = some 0x200 := by decide
theorem witness_MemReadIsTheLittleEndianSum :
    (0x3FC#32).toNat + Width.word.bytes ≤ (machine 0 0 0).cfg.memSize ∧
      (machine 0 0 0).cfg.memSize < (0x3FD#32).toNat + Width.word.bytes := by decide
theorem witness_MemWriteChangesExactlyItsBytes :
    (0x3FE#32).toNat + Width.half.bytes ≤ (machine 0 0 0).cfg.memSize ∧
      (machine 0 0 0).cfg.memSize < (0x3FF#32).toNat + Width.half.bytes := by decide

/-- The state a step or an instruction leads to; the state itself where there is none. -/
def goes (r : Result) (s : State) : State :=
  match r with
  | .next t => t
  | .fault _ => s
  | .refused _ => s

theorem next_of_sees {r : Result} {s : State} (h : sees r (fun _ => ()) = some ()) : r = .next (goes r s) := by
  cases r with
  | next t => rfl
  | fault f => cases h
  | refused f => cases h

theorem witness_StoreThenLoadReturnsTheStoredValue :
    ∃ t u, (3 : Reg) ≠ 0 ∧ ((machine 0x3FC 7 0).reg 1 + 0#32).toNat + 4 ≤ (machine 0x3FC 7 0).cfg.memSize ∧
      exec (.sw 1 2 0) (machine 0x3FC 7 0) = .next t ∧ exec (.lw 3 1 0) t = .next u :=
  ⟨goes (exec (.sw 1 2 0) (machine 0x3FC 7 0)) State.reset, _, by decide, by decide, next_of_sees (by decide),
    next_of_sees (s := State.reset) (by decide)⟩
theorem witness_StoreThenLoadReturnsTheStoredValue_half :
    ∃ t u, (3 : Reg) ≠ 0 ∧ ((machine 0x3FE 7 0).reg 1 + 0#32).toNat + 2 ≤ (machine 0x3FE 7 0).cfg.memSize ∧
      exec (.sh 1 2 0) (machine 0x3FE 7 0) = .next t ∧ exec (.lhu 3 1 0) t = .next u :=
  ⟨goes (exec (.sh 1 2 0) (machine 0x3FE 7 0)) State.reset, _, by decide, by decide, next_of_sees (by decide),
    next_of_sees (s := State.reset) (by decide)⟩
theorem witness_StoreThenLoadReturnsTheStoredValue_byte :
    ∃ t u, (3 : Reg) ≠ 0 ∧ ((machine 0x3FF 7 0).reg 1 + 0#32).toNat + 1 ≤ (machine 0x3FF 7 0).cfg.memSize ∧
      exec (.sb 1 2 0) (machine 0x3FF 7 0) = .next t ∧ exec (.lbu 3 1 0) t = .next u :=
  ⟨goes (exec (.sb 1 2 0) (machine 0x3FF 7 0)) State.reset, _, by decide, by decide, next_of_sees (by decide),
    next_of_sees (s := State.reset) (by decide)⟩
/-- A store to the last word of the image from the instruction before it. -/
theorem witness_NextFetchSeesTheStoredWord :
    ∃ t, (machine 0x3FC 7 0x3F8).status = .running ∧
      (machine 0x3FC 7 0x3F8).reg 1 + 0#32 = (machine 0x3FC 7 0x3F8).pc + 4#32 ∧
      ((machine 0x3FC 7 0x3F8).pc + 4#32).toNat < (machine 0x3FC 7 0x3F8).cfg.imageLen ∧
      ((machine 0x3FC 7 0x3F8).pc + 4#32).toNat + 4 ≤ (machine 0x3FC 7 0x3F8).cfg.memSize ∧
      exec (.sw 1 2 0) (machine 0x3FC 7 0x3F8) = .next t :=
  ⟨_, by decide, by decide, by decide, by decide, next_of_sees (s := State.reset) (by decide)⟩

/-- A well-formed state whose step is a store. -/
theorem witness_StepKeepsTheStateWellFormed :
    ∃ t, (atWord 0x0020A023#32).wf = true ∧ step (atWord 0x0020A023#32) = .next t :=
  ⟨_, by decide, next_of_sees (s := State.reset) (by decide)⟩
theorem witness_LaunchPlacesTheImage :
    1 ≤ 6 ∧ 6 ≤ 2 ^ 32 ∧ ([0x93#8, 0x00#8, 0x50#8, 0x00#8, 0x73#8] : List Byte).length ≤ 6 ∧
      0 < ([0x93#8, 0x00#8, 0x50#8, 0x00#8, 0x73#8] : List Byte).length ∧
      ([0x93#8, 0x00#8, 0x50#8, 0x00#8, 0x73#8] : List Byte).length ≤ 5 ∧ 5 < 6 := by decide
/-- One byte too many, no memory, and one byte more than the address space. -/
theorem witness_LaunchRefusesWhatDoesNotFit :
    1 < ([0x93#8, 0x00#8] : List Byte).length ∧ 0 < 1 ∧ 2 ^ 32 < 2 ^ 32 + 1 := by decide
/-- A launch of one ADDI and the state after its one step. -/
theorem witness_EveryRunStaysWellFormed :
    ∃ s t, State.launch 8 [0x93#8, 0x00#8, 0x50#8, 0x00#8] (fun _ => 0xFF#8) = some s ∧ Reaches s t ∧
      t.reg 1 = 5#32 := by
  let s := (State.launch 8 [0x93#8, 0x00#8, 0x50#8, 0x00#8] (fun _ => 0xFF#8)).getD State.reset
  exact ⟨s, goes (step s) s, by decide, .more .here (next_of_sees (by decide)), by decide⟩
/-- One step of each outcome: it goes on, the two normal ends, an illegal word, and the three memory faults. -/
theorem witness_RunEndsOnlyInTheFourWays :
    sees (step (atWord 0x00500093#32)) (fun t => t.status) = some .running ∧
    sees (step (atWord 0x00000073#32)) (fun t => t.status) = some (.halted .ecall) ∧
    sees (step (machine 0 0 0x400)) (fun t => t.status) = some (.halted .endOfImage) ∧
    sees (step (atWord 0x00100073#32)) (fun t => t.status) = some (.faulted (.invalidEncoding 0x200 0x00100073)) ∧
    sees (step (machine 0 0 0x3FE)) (fun t => t.status) = some (.faulted (.memFault .fetch 0x3FE .word)) ∧
    sees (step (atWord 0x3000A183#32)) (fun t => t.status) = some (.faulted (.memFault .load 0x400 .word)) ∧
    sees (step (atWord 0x302080A3#32)) (fun t => t.status) = some (.faulted (.memFault .store 0x401 .byte)) := by decide
theorem witness_JumpToItselfRunsForever : AboutToExecute (atWord 0x0000006F#32) 0x0000006F#32 :=
  about_atWord _ (by decide)
theorem witness_StoppingStepChangesOnlyTheStatus :
    sees (step (atWord 0x00000073#32)) (fun t => decide (t.status ≠ .running)) = some true := by decide
theorem witness_StepWritesAtMostOneRegisterOrOneMemoryWindow :
    sees (step (atWord 0x002081B3#32)) (fun t => t.reg 3) = some 0x107 ∧
    sees (step (atWord 0x0020A023#32)) (fun t => t.mem.byteAt 0x100) = some 0x07 := by decide
theorem witness_OnlyStoresChangeMemory :
    sees (step (atWord 0x0020A023#32)) (fun t => decide (t.mem ≠ (atWord 0x0020A023#32).mem)) = some true := by decide
theorem witness_InstructionsWriteOnlyTheirDestination :
    sees (exec (.add 3 1 2) (machine 1 2 0)) (fun _ => ()) = some () ∧
      (Instr.add 3 1 2).writes ≠ some 1 ∧ (Instr.sw 1 2 0).writes ≠ some 2 := by decide
/-- Two machines that differ in x2 only, and an instruction that does not read it. -/
theorem witness_UnreadRegistersDoNotMatter :
    ∃ t, (machine 0x100 7 0).status = .running ∧ (machine 0x100 9 0).pc = (machine 0x100 7 0).pc ∧
      (machine 0x100 9 0).mem = (machine 0x100 7 0).mem ∧
      (machine 0x100 9 0).status = (machine 0x100 7 0).status ∧ (machine 0x100 9 0).cfg = (machine 0x100 7 0).cfg ∧
      (∀ r ∈ (Instr.lw 2 1 0).reads, (machine 0x100 9 0).reg r = (machine 0x100 7 0).reg r) ∧
      exec (.lw 2 1 0) (machine 0x100 7 0) = .next t :=
  ⟨_, by decide, by decide, by decide, by decide, by decide, by decide, next_of_sees (s := State.reset) (by decide)⟩
theorem witness_PlacedWordIsExecutedNext : decodeTableWord 32 0x00500093 = some (.addi 1 0 5#32) := by decide

end Sys2Proof.Tests
end

section
/-! SUPPORT. The shared operation behind every instruction, and what a step leaves of the memory and the launch parameters
(10_state.md section 5, 00_scope.md R6). -/

namespace Sys2Proof.Machine

/-! ### The shape of an instruction's meaning -/

/-- The store instruction of each width (R172 to R174). -/
def storeOf : Width → Reg → Reg → Word → Instr
  | .byte => .sb
  | .half => .sh
  | .word => .sw

/-- `ExecShape s i r`: `r` is a shared operation applied to `s`, and it is one that instruction `i` may be: it writes the
register `i` names as its destination, or none where `i` names none, and only a store instruction is a `store`. -/
inductive ExecShape (s : State) : Instr → Result → Prop where
  | result {i rd} (v) (hw : i.writes = some rd) : ExecShape s i (s.writeAndAdvance rd v)
  | jump {i rd} (target) (hw : i.writes = some rd) : ExecShape s i (s.linkAndJump rd target)
  | branch {i} (taken imm) (hw : i.writes = none) : ExecShape s i (s.branch taken imm)
  | load {i rd} (w extend rs1 imm) (hw : i.writes = some rd) : ExecShape s i (s.load w extend rd rs1 imm)
  | store (w rs1 rs2 imm) : ExecShape s (storeOf w rs1 rs2 imm) (s.store w rs1 rs2 imm)
  | ecall : ExecShape s .ecall (s.halt .ecall)

/-- Every instruction's meaning is one shared operation. -/
theorem exec_shape (s : State) : (i : Instr) → ExecShape s i (exec i s)
  | .add .. | .sub .. | .sll .. | .slt .. | .sltu .. | .xor .. | .srl .. | .sra .. | .or .. | .and ..
  | .addi .. | .slli .. | .slti .. | .sltiu .. | .xori .. | .srli .. | .srai .. | .ori .. | .andi ..
  | .lui .. | .auipc .. => .result _ rfl
  | .jalr .. | .jal .. => .jump _ rfl
  | .beq .. | .bne .. | .blt .. | .bge .. | .bltu .. | .bgeu .. => .branch _ _ rfl
  | .lb .. | .lh .. | .lw .. | .lbu .. | .lhu .. => .load _ _ _ _ rfl
  | .sb rs1 rs2 imm => .store .byte rs1 rs2 imm
  | .sh rs1 rs2 imm => .store .half rs1 rs2 imm
  | .sw rs1 rs2 imm => .store .word rs1 rs2 imm
  | .ecall => .ecall

/-! ### The parameters and the memory after each shared operation -/

variable {s t : State} {i : Instr} {r : Result} {rd rs1 rs2 : Reg} {imm v target : Word} {w : Width}

theorem State.writeAndAdvance_keeps_cfg_mem (h : s.writeAndAdvance rd v = .next t) :
    t.cfg = s.cfg ∧ t.mem = s.mem := by
  cases h; simp

theorem State.linkAndJump_keeps_cfg_mem (h : s.linkAndJump rd target = .next t) :
    t.cfg = s.cfg ∧ t.mem = s.mem := by
  cases h; simp

theorem State.branch_keeps_cfg_mem {taken : Bool} (h : s.branch taken imm = .next t) :
    t.cfg = s.cfg ∧ t.mem = s.mem := by
  cases taken <;> (cases h; exact ⟨rfl, rfl⟩)

theorem State.halt_keeps_cfg_mem {reason : HaltReason} (h : s.halt reason = .next t) :
    t.cfg = s.cfg ∧ t.mem = s.mem := by
  cases h; exact ⟨rfl, rfl⟩

theorem State.load_keeps_cfg_mem {extend : Word → Word} (h : s.load w extend rd rs1 imm = .next t) :
    t.cfg = s.cfg ∧ t.mem = s.mem := by
  obtain ⟨-, hf⟩ | ⟨-, hl⟩ := s.load_cases w extend rd rs1 imm
  · cases hf.symm.trans h; exact ⟨rfl, rfl⟩
  · exact State.writeAndAdvance_keeps_cfg_mem (hl.symm.trans h)

theorem State.store_keeps_cfg (h : s.store w rs1 rs2 imm = .next t) : t.cfg = s.cfg := by
  obtain ⟨-, hf⟩ | ⟨-, u, hu, ⟨-, -, -, -, hcfg⟩, -, -⟩ := s.store_cases w rs1 rs2 imm
  · cases hf.symm.trans h; rfl
  · cases hu.symm.trans h; exact hcfg

/-! ### The parameters and the memory after an instruction and after a step -/

/-- An instruction with a next state keeps the parameters, and it keeps the memory or it is a store. -/
theorem ExecShape.keeps_cfg_mem_or_store (shape : ExecShape s i r) (h : r = .next t) :
    t.cfg = s.cfg ∧ (t.mem = s.mem ∨ ∃ w rs1 rs2 imm, i = storeOf w rs1 rs2 imm) := by
  cases shape with
  | result => exact (State.writeAndAdvance_keeps_cfg_mem h).imp_right .inl
  | jump => exact (State.linkAndJump_keeps_cfg_mem h).imp_right .inl
  | branch => exact (State.branch_keeps_cfg_mem h).imp_right .inl
  | load => exact (State.load_keeps_cfg_mem h).imp_right .inl
  | store w rs1 rs2 imm => exact ⟨State.store_keeps_cfg h, .inr ⟨w, rs1, rs2, imm, rfl⟩⟩
  | ecall => exact (State.halt_keeps_cfg_mem h).imp_right .inl

/-- Settles O51: a step that runs no instruction changes the status alone, and of the instructions only a store's
shared operation can change the memory. -/
theorem onlyStoresChangeMemory : Obligations.OnlyStoresChangeMemory := by
  intro s t h
  obtain ⟨-, ⟨-, rfl⟩ | ⟨-, -, rfl⟩ | ⟨_, _, -, -, rfl⟩ | ⟨w, i, ha, hd, hx⟩⟩ := step_cases h
  · exact ⟨rfl, fun hm => absurd rfl hm⟩
  · exact ⟨rfl, fun hm => absurd rfl hm⟩
  · exact ⟨rfl, fun hm => absurd rfl hm⟩
  · obtain ⟨hcfg, hmem | ⟨n, rs1, rs2, imm, rfl⟩⟩ :=
      (exec_shape s i).keeps_cfg_mem_or_store hx
    · exact ⟨hcfg, fun hm => absurd hmem hm⟩
    · refine ⟨hcfg, fun _ => ⟨w, rs1, rs2, imm, ha, ?_⟩⟩
      cases n with
      | byte => exact .inl hd
      | half => exact .inr (.inl hd)
      | word => exact .inr (.inr hd)

end Sys2Proof.Machine
end

section
/-! SUPPORT. What an instruction writes to the registers, and what the registers it neither reads nor writes can show
(10_state.md R11 to R13). -/

namespace Sys2Proof.Machine

variable {s t u : State} {i : Instr} {r r' : Result} {rd rs1 rs2 : Reg} {imm v target : Word} {w : Width}

/-! ### The register file after an instruction -/

/-- An instruction leaves the register file alone, or it writes one value to the register it names (R12, R13). -/
theorem ExecShape.regs_eq_or_setReg (shape : ExecShape s i r) (h : r = .next t) :
    t.regs = s.regs ∨ ∃ rd v, i.writes = some rd ∧ t.regs = (s.setReg rd v).regs := by
  cases shape with
  | result v hw => cases h; exact .inr ⟨_, v, hw, rfl⟩
  | jump _ hw => cases h; exact .inr ⟨_, s.pc + 4#32, hw, rfl⟩
  | branch taken => cases taken <;> (cases h; exact .inl rfl)
  | load w extend rs1 imm hw =>
    obtain ⟨-, hf⟩ | ⟨-, hl⟩ := s.load_cases w extend _ rs1 imm
    · cases hf.symm.trans h; exact .inl rfl
    · cases hl.symm.trans h; exact .inr ⟨_, _, hw, rfl⟩
  | store w rs1 rs2 imm =>
    obtain ⟨-, hf⟩ | ⟨-, u, hu, -, hregs, -⟩ := s.store_cases w rs1 rs2 imm
    · cases hf.symm.trans h; exact .inl rfl
    · cases hu.symm.trans h; exact .inl hregs
  | ecall => cases h; exact .inl rfl

theorem exec_regs (h : exec i s = .next t) :
    t.regs = s.regs ∨ ∃ rd v, i.writes = some rd ∧ t.regs = (s.setReg rd v).regs :=
  (exec_shape s i).regs_eq_or_setReg h

/-- Slot 0 is never written (R12). -/
theorem exec_slot_zero (h : exec i s = .next t) : t.regs[0] = s.regs[0] := by
  obtain hregs | ⟨rd, v, -, hregs⟩ := exec_regs h <;> simp [hregs]

/-- An instruction whose destination, if any, is x0 leaves the whole register file alone. -/
theorem exec_regs_of_writes_zero (hw : ∀ rd, i.writes = some rd → rd = 0) (h : exec i s = .next t) :
    t.regs = s.regs := by
  obtain hregs | ⟨rd, v, hrd, hregs⟩ := exec_regs h
  · exact hregs
  · rw [hregs, hw rd hrd, State.setReg_zero]

/-- Settles O35: the three clauses are the laws of `State.reg` and `State.setReg`. -/
theorem registerReadsItsLastWrittenValue : Obligations.RegisterReadsItsLastWrittenValue :=
  ⟨State.reg_zero, fun _ _ => rfl, fun s r q v => State.setReg_reg s r q v⟩

/-- Settles O52: the register file is as before or has one write to the named destination. -/
theorem instructionsWriteOnlyTheirDestination : Obligations.InstructionsWriteOnlyTheirDestination := by
  intro i s t r h hr
  obtain hregs | ⟨rd, v, hrd, hregs⟩ := exec_regs h
  · exact State.reg_congr r hregs
  · have hne : r ≠ rd := fun he => hr (he ▸ hrd)
    rw [State.reg_congr r hregs, State.setReg_reg, if_neg fun hc => hne hc.1]

/-! ### Two runs of one shared operation -/

/-- `s` and `u` differ in their registers at most. -/
structure AgreeBesideRegs (s u : State) : Prop where
  pc : u.pc = s.pc
  mem : u.mem = s.mem
  status : u.status = s.status
  cfg : u.cfg = s.cfg

/-- `Alike s u d d' r r'`: `r` is a shared operation applied to `s` and `r'` the same one applied to `u`, with the same
operands and with the destinations `d` and `d'`. -/
inductive Alike (s u : State) : Option Reg → Option Reg → Result → Result → Prop where
  | result {rd rd' : Reg} {v v' : Word} (hv : v' = v) :
      Alike s u (some rd) (some rd') (s.writeAndAdvance rd v) (u.writeAndAdvance rd' v')
  | jump {rd rd' : Reg} {target target' : Word} (ht : target' = target) :
      Alike s u (some rd) (some rd') (s.linkAndJump rd target) (u.linkAndJump rd' target')
  | branch {taken taken' : Bool} {imm : Word} (ht : taken' = taken) :
      Alike s u none none (s.branch taken imm) (u.branch taken' imm)
  | load {rd rd' rs1 : Reg} {w : Width} {extend : Word → Word} {imm : Word} (h1 : u.reg rs1 = s.reg rs1) :
      Alike s u (some rd) (some rd') (s.load w extend rd rs1 imm) (u.load w extend rd' rs1 imm)
  | store {rs1 rs2 : Reg} {w : Width} {imm : Word} (h1 : u.reg rs1 = s.reg rs1) (h2 : u.reg rs2 = s.reg rs2) :
      Alike s u none none (s.store w rs1 rs2 imm) (u.store w rs1 rs2 imm)
  | ecall : Alike s u none none (s.halt .ecall) (u.halt .ecall)

/-- What two alike operations have in common: `r'` has a next state when `r` has one, the two states differ in their
registers at most, and a common destination holds the same value when the run goes on. -/
def AlikeNext (d d' : Option Reg) (t : State) (r' : Result) : Prop :=
  ∃ t', r' = .next t' ∧ AgreeBesideRegs t t' ∧
    (t.status = .running → ∀ q, d = some q → d' = some q → t'.reg q = t.reg q)

theorem State.writeAndAdvance_alikeNext (hsu : AgreeBesideRegs s u) {rd rd' : Reg}
    (h : s.writeAndAdvance rd v = .next t) : AlikeNext (some rd) (some rd') t (u.writeAndAdvance rd' v) := by
  cases h
  refine ⟨_, rfl, ⟨by simp [hsu.pc], by simp [hsu.mem], by simp [hsu.status], by simp [hsu.cfg]⟩, ?_⟩
  rintro - _ ⟨⟩ ⟨⟩
  by_cases hrd : rd = 0 <;> simp [hrd]

theorem State.linkAndJump_alikeNext (hsu : AgreeBesideRegs s u) {rd rd' : Reg}
    (h : s.linkAndJump rd target = .next t) : AlikeNext (some rd) (some rd') t (u.linkAndJump rd' target) := by
  cases h
  refine ⟨_, rfl, ⟨rfl, by simp [hsu.mem], by simp [hsu.status], by simp [hsu.cfg]⟩, ?_⟩
  rintro - _ ⟨⟩ ⟨⟩
  by_cases hrd : rd = 0 <;> simp [hrd, hsu.pc]

theorem State.branch_alikeNext (hsu : AgreeBesideRegs s u) {taken : Bool} (h : s.branch taken imm = .next t) :
    AlikeNext none none t (u.branch taken imm) := by
  cases taken <;>
    (cases h; exact ⟨_, rfl, ⟨by simp [hsu.pc], hsu.mem, hsu.status, hsu.cfg⟩, by rintro - _ ⟨⟩⟩)

theorem State.effectiveAddress_congr (h1 : u.reg rs1 = s.reg rs1) :
    u.effectiveAddress rs1 imm = s.effectiveAddress rs1 imm := by
  rw [State.effectiveAddress, h1, State.effectiveAddress]

theorem State.load_alikeNext (hsu : AgreeBesideRegs s u) (h1 : u.reg rs1 = s.reg rs1) {rd rd' : Reg}
    {extend : Word → Word} (h : s.load w extend rd rs1 imm = .next t) :
    AlikeNext (some rd) (some rd') t (u.load w extend rd' rs1 imm) := by
  have hu := u.load_cases w extend rd' rs1 imm
  rw [State.effectiveAddress_congr h1, hsu.cfg, hsu.mem] at hu
  obtain ⟨hs, hf⟩ | ⟨hs, hl⟩ := s.load_cases w extend rd rs1 imm
  · obtain ⟨-, hu⟩ | ⟨hle, -⟩ := hu
    · cases hf.symm.trans h
      exact ⟨_, hu, ⟨hsu.pc, rfl, rfl, rfl⟩, by rintro ⟨⟩⟩
    · exact absurd hs hle.not_gt
  · obtain ⟨hlt, -⟩ | ⟨-, hu⟩ := hu
    · exact absurd hlt hs.not_gt
    · exact hu ▸ State.writeAndAdvance_alikeNext hsu (hl.symm.trans h)

theorem State.store_alikeNext (hsu : AgreeBesideRegs s u) (h1 : u.reg rs1 = s.reg rs1) (h2 : u.reg rs2 = s.reg rs2)
    (h : s.store w rs1 rs2 imm = .next t) : AlikeNext none none t (u.store w rs1 rs2 imm) := by
  have hu := u.store_cases w rs1 rs2 imm
  rw [State.effectiveAddress_congr h1, h2, hsu.cfg, hsu.mem] at hu
  obtain ⟨hs, hf⟩ | ⟨hs, t₁, ht, ⟨-, -, hpc, hst, hcfg⟩, -, hmem⟩ := s.store_cases w rs1 rs2 imm
  · obtain ⟨-, hu⟩ | ⟨hle, -⟩ := hu
    · cases hf.symm.trans h
      exact ⟨_, hu, ⟨hsu.pc, rfl, rfl, rfl⟩, by rintro ⟨⟩⟩
    · exact absurd hs hle.not_gt
  · obtain ⟨hlt, -⟩ | ⟨-, t', hu, ⟨-, -, hpc', hst', hcfg'⟩, -, hmem'⟩ := hu
    · exact absurd hlt hs.not_gt
    · cases ht.symm.trans h
      exact ⟨t', hu, ⟨by rw [hpc', hpc, hsu.pc], by rw [hmem', hmem], by rw [hst', hst, hsu.status],
        by rw [hcfg', hcfg, hsu.cfg]⟩, by rintro - _ ⟨⟩⟩

theorem Alike.next {d d' : Option Reg} (ha : Alike s u d d' r r') (hsu : AgreeBesideRegs s u) (h : r = .next t) :
    AlikeNext d d' t r' := by
  cases ha with
  | result hv => exact hv ▸ State.writeAndAdvance_alikeNext hsu h
  | jump ht => exact ht ▸ State.linkAndJump_alikeNext hsu h
  | branch ht => exact ht ▸ State.branch_alikeNext hsu h
  | load h1 => exact State.load_alikeNext hsu h1 h
  | store h1 h2 => exact State.store_alikeNext hsu h1 h2 h
  | ecall => cases h; exact ⟨_, rfl, ⟨hsu.pc, hsu.mem, rfl, hsu.cfg⟩, by rintro ⟨⟩⟩

/-! ### Register 0 as destination -/

theorem Instr.toRegisterZero_writes : ∀ i : Instr, i.toRegisterZero.writes = i.writes.map fun _ => 0 := by
  rintro ⟨⟩ <;> rfl

/-- With x0 as its destination an instruction is the same shared operation with the same operands. -/
theorem exec_toRegisterZero_alike (s : State) : (i : Instr) →
    Alike s s i.writes i.toRegisterZero.writes (exec i s) (exec i.toRegisterZero s)
  | .add .. | .sub .. | .sll .. | .slt .. | .sltu .. | .xor .. | .srl .. | .sra .. | .or .. | .and ..
  | .addi .. | .slli .. | .slti .. | .sltiu .. | .xori .. | .srli .. | .srai .. | .ori .. | .andi ..
  | .lui .. | .auipc .. => .result rfl
  | .jalr .. | .jal .. => .jump rfl
  | .beq .. | .bne .. | .blt .. | .bge .. | .bltu .. | .bgeu .. => .branch rfl
  | .lb .. | .lh .. | .lw .. | .lbu .. | .lhu .. => .load rfl
  | .sb .. | .sh .. | .sw .. => .store rfl rfl
  | .ecall => .ecall

/-- Settles O36: slot 0 is never written, and the form with x0 as destination is alike and writes no register. -/
theorem registerZeroIsHardwired : Obligations.RegisterZeroIsHardwired := by
  refine ⟨State.setReg_zero, fun i s t h => ⟨t.reg_zero, exec_slot_zero h, ?_⟩⟩
  obtain ⟨u, hu, ⟨hpc, hmem, hst, hcfg⟩, -⟩ := (exec_toRegisterZero_alike s i).next ⟨rfl, rfl, rfl, rfl⟩ h
  have hw : ∀ rd, i.toRegisterZero.writes = some rd → rd = 0 := by
    simp +contextual [Instr.toRegisterZero_writes, eq_comm]
  exact ⟨u, hu, exec_regs_of_writes_zero hw hu, hpc, hmem, hst, hcfg⟩

/-! ### Registers that are not read -/

/-- From states that agree on the pc and on the registers an instruction reads, it is the same shared operation with the
same operands. -/
theorem exec_alike_of_reads (hpc : u.pc = s.pc) (i : Instr) (hread : ∀ q ∈ i.reads, u.reg q = s.reg q) :
    Alike s u i.writes i.writes (exec i s) (exec i u) := by
  cases i
  case add | sub | sll | slt | sltu | xor | srl | sra | or | and =>
    have h1 := hread _ List.mem_cons_self
    have h2 := hread _ (List.mem_cons_of_mem _ List.mem_cons_self)
    exact .result (by rw [h1, h2])
  case addi | slli | slti | sltiu | xori | srli | srai | ori | andi =>
    exact .result (by rw [hread _ List.mem_cons_self])
  case lui => exact .result rfl
  case auipc => exact .result (by rw [hpc])
  case jalr => exact .jump (by rw [hread _ List.mem_cons_self])
  case jal => exact .jump (by rw [hpc])
  case beq | bne | blt | bge | bltu | bgeu =>
    have h1 := hread _ List.mem_cons_self
    have h2 := hread _ (List.mem_cons_of_mem _ List.mem_cons_self)
    exact .branch (by rw [h1, h2])
  case lb | lh | lw | lbu | lhu => exact .load (hread _ List.mem_cons_self)
  case sb | sh | sw =>
    have h1 := hread _ List.mem_cons_self
    have h2 := hread _ (List.mem_cons_of_mem _ List.mem_cons_self)
    exact .store h1 h2
  case ecall => exact .ecall

/-- Settles O53: the two runs are one shared operation with the same operands. -/
theorem unreadRegistersDoNotMatter : Obligations.UnreadRegistersDoNotMatter := by
  intro i s u t _ hpc hmem hst hcfg hread h
  obtain ⟨t', ht', ⟨hpc', hmem', hst', hcfg'⟩, hdest⟩ :=
    (exec_alike_of_reads hpc i hread).next ⟨hpc, hmem, hst, hcfg⟩ h
  exact ⟨t', ht', hpc', hmem', hst', hcfg', fun hrun q hq => hdest hrun q hq hq⟩

end Sys2Proof.Machine
end

section
/-! SUPPORT. The legal shape of the state: the even pc (10_state.md R17), the canonical memory inside MEM_SIZE (R23, R30),
and the reset state (R25). -/

namespace Sys2Proof

/-! ### The pc-relative offset of a decoded instruction is even -/

/-- What a taken branch or a JAL adds to the pc; 0 for an instruction that has no such offset (R59, R61). -/
def Instr.pcOffset : Instr → Word
  | .beq _ _ imm | .bne _ _ imm | .blt _ _ imm | .bge _ _ imm | .bltu _ _ imm | .bgeu _ _ imm => imm
  | .jal _ imm => imm
  | _ => 0#32

/-- The same offset in a Decoded Instruction. -/
def Decoded.pcOffset : Decoded → Word
  | .b _ _ _ _ imm => imm
  | .j _ _ imm => imm
  | _ => 0#32

variable {i : Instr} {d : Decoded} {rd rs1 rs2 : Reg} {f3 : BitVec 3} {f7 : BitVec 7} {imm w : Word}

/-- The selection keeps the offset: it answers an error, or an instruction with the immediate it was given. -/
theorem select_pcOffset (h : select d = .ok i) : i.pcOffset = d.pcOffset := by
  cases d
  all_goals
    simp only [select, selectR, selectImm, selectLoad, selectJalr, selectSystem, selectStore, selectBranch] at h
    repeat' split at h
    all_goals (cases h <;> rfl)

theorem immBOf_even (w : Word) : (immBOf w).getLsbD 0 = false := by
  simp only [immBOf, sext, BitVec.getLsbD_signExtend, BitVec.getLsbD_append]
  simp

theorem immJOf_even (w : Word) : (immJOf w).getLsbD 0 = false := by
  simp only [immJOf, sext, BitVec.getLsbD_signExtend, BitVec.getLsbD_append]
  simp

theorem add_even {a b : Word} (ha : a.getLsbD 0 = false) (hb : b.getLsbD 0 = false) :
    (a + b).getLsbD 0 = false := by
  rw [BitVec.getLsbD_add (by decide), ha, hb]
  simp

theorem decodeClass_pcOffset_even (w : Word) : (decodeClass w).pcOffset.getLsbD 0 = false := by
  unfold decodeClass
  cases classOf (opcodeOf w) with
  | B => exact immBOf_even w
  | J => exact immJOf_even w
  | R | I | S | U | Unknown => simp [Decoded.pcOffset]

theorem decode_pcOffset_even (h : decode w = .ok i) : i.pcOffset.getLsbD 0 = false := by
  rw [select_pcOffset h, decodeClass_pcOffset_even]

end Sys2Proof

namespace Sys2Proof.Machine

variable {s t : State} {i : Instr} {rd rs1 rs2 : Reg} {imm v target : Word} {w : Width}

/-! ### The pc after an instruction is even -/

theorem State.writeAndAdvance_pc_even (hs : s.pc.getLsbD 0 = false) (h : s.writeAndAdvance rd v = .next t) :
    t.pc.getLsbD 0 = false := by
  cases h
  rw [State.advance_pc, State.setReg_pc]
  exact add_even hs rfl

theorem State.linkAndJump_pc_even (ht : target.getLsbD 0 = false) (h : s.linkAndJump rd target = .next t) :
    t.pc.getLsbD 0 = false := by
  cases h; exact ht

theorem State.branch_pc_even {taken : Bool} (hs : s.pc.getLsbD 0 = false) (hi : imm.getLsbD 0 = false)
    (h : s.branch taken imm = .next t) : t.pc.getLsbD 0 = false := by
  cases taken
  · cases h; exact add_even hs rfl
  · cases h; exact add_even hs hi

theorem State.load_pc_even {extend : Word → Word} (hs : s.pc.getLsbD 0 = false)
    (h : s.load w extend rd rs1 imm = .next t) : t.pc.getLsbD 0 = false := by
  obtain ⟨-, hf⟩ | ⟨-, hl⟩ := s.load_cases w extend rd rs1 imm
  · cases hf.symm.trans h; exact hs
  · exact State.writeAndAdvance_pc_even hs (hl.symm.trans h)

theorem State.store_pc_even (hs : s.pc.getLsbD 0 = false) (h : s.store w rs1 rs2 imm = .next t) :
    t.pc.getLsbD 0 = false := by
  obtain ⟨-, hf⟩ | ⟨-, u, hu, ⟨-, -, hpc, -, -⟩, -, -⟩ := s.store_cases w rs1 rs2 imm
  · cases hf.symm.trans h; exact hs
  · cases hu.symm.trans h
    rw [hpc]
    exact add_even hs rfl

/-- The target of a JALR (R165). -/
theorem clearBit0_even (v : Word) : (v &&& 0xFFFFFFFE#32).getLsbD 0 = false := by
  rw [BitVec.getLsbD_and]
  exact Bool.and_false _

/-- An even pc stays even: AdvancePC adds 4, the offsets of branches and JAL are even, and JALR clears bit 0 (R17). -/
theorem exec_pc_even (hs : s.pc.getLsbD 0 = false) : (i : Instr) → i.pcOffset.getLsbD 0 = false →
    exec i s = .next t → t.pc.getLsbD 0 = false
  | .add .., _, h | .sub .., _, h | .sll .., _, h | .slt .., _, h | .sltu .., _, h | .xor .., _, h | .srl .., _, h
  | .sra .., _, h | .or .., _, h | .and .., _, h | .addi .., _, h | .slli .., _, h | .slti .., _, h
  | .sltiu .., _, h | .xori .., _, h | .srli .., _, h | .srai .., _, h | .ori .., _, h | .andi .., _, h
  | .lui .., _, h | .auipc .., _, h => State.writeAndAdvance_pc_even hs h
  | .jalr .., _, h => State.linkAndJump_pc_even (clearBit0_even _) h
  | .jal .., hi, h => State.linkAndJump_pc_even (add_even hs hi) h
  | .beq .., hi, h | .bne .., hi, h | .blt .., hi, h | .bge .., hi, h | .bltu .., hi, h | .bgeu .., hi, h =>
    State.branch_pc_even hs hi h
  | .lb .., _, h | .lh .., _, h | .lw .., _, h | .lbu .., _, h | .lhu .., _, h => State.load_pc_even hs h
  | .sb .., _, h | .sh .., _, h | .sw .., _, h => State.store_pc_even hs h
  | .ecall, _, h => by cases h; exact hs

/-! ### The memory after an instruction is canonical and inside MEM_SIZE -/

theorem exec_storeOf (w : Width) (rs1 rs2 : Reg) (imm : Word) (s : State) :
    exec (storeOf w rs1 rs2 imm) s = s.store w rs1 rs2 imm := by
  cases w <;> rfl

theorem State.store_keeps_mem_wf (hwf : s.mem.wf = true) (hin : s.mem.within s.cfg.memSize = true)
    (h : s.store w rs1 rs2 imm = .next t) : t.mem.wf = true ∧ t.mem.within s.cfg.memSize = true := by
  obtain ⟨-, hf⟩ | ⟨hle, u, hu, -, -, hmem⟩ := s.store_cases w rs1 rs2 imm
  · cases hf.symm.trans h; exact ⟨hwf, hin⟩
  · cases hu.symm.trans h
    rw [hmem]
    exact ⟨Memory.wf_setBytes hwf _ _, Memory.within_setBytes hin (by rwa [length_bytesOf])⟩

theorem exec_keeps_mem_wf (hwf : s.mem.wf = true) (hin : s.mem.within s.cfg.memSize = true)
    (h : exec i s = .next t) : t.mem.wf = true ∧ t.mem.within s.cfg.memSize = true := by
  obtain ⟨-, hmem | ⟨w, rs1, rs2, imm, rfl⟩⟩ := (exec_shape s i).keeps_cfg_mem_or_store h
  · rw [hmem]; exact ⟨hwf, hin⟩
  · exact State.store_keeps_mem_wf hwf hin ((exec_storeOf w rs1 rs2 imm s).symm.trans h)

/-! ### The legal shape -/

theorem State.wf_iff : s.wf = true ↔ s.cfg.wf = true ∧ s.mem.wf = true ∧ s.mem.within s.cfg.memSize = true ∧
    s.regs[0] = 0#32 ∧ s.pc.getLsbD 0 = false := by
  simp [State.wf, and_assoc]

/-- The status has no part in the legal shape, so no end of a run breaks it. -/
theorem State.wf_withStatus (s : State) (st : Status) : ({ s with status := st } : State).wf = s.wf := rfl

theorem exec_keeps_wf (hi : i.pcOffset.getLsbD 0 = false) (hs : s.wf = true) (h : exec i s = .next t) :
    t.wf = true := by
  obtain ⟨hcfg, hmem, hin, hslot, hpc⟩ := State.wf_iff.mp hs
  have hcfg' : t.cfg = s.cfg := ((exec_shape s i).keeps_cfg_mem_or_store h).1
  obtain ⟨hmem', hin'⟩ := exec_keeps_mem_wf hmem hin h
  exact State.wf_iff.mpr ⟨hcfg' ▸ hcfg, hmem', hcfg' ▸ hin', (exec_slot_zero h).trans hslot, exec_pc_even hpc i hi h⟩

/-- Settles O41: a step that runs no instruction changes the status alone, and a decoded instruction keeps each part of
the shape. -/
theorem stepKeepsTheStateWellFormed : Obligations.StepKeepsTheStateWellFormed := by
  intro s t hs h
  obtain ⟨-, ⟨-, rfl⟩ | ⟨-, -, rfl⟩ | ⟨_, _, -, -, rfl⟩ | ⟨_, i, -, hd, hx⟩⟩ := step_cases h
  · rwa [State.wf_withStatus]
  · rwa [State.wf_withStatus]
  · rwa [State.wf_withStatus]
  · exact exec_keeps_wf (decode_pcOffset_even hd) hs hx

/-! ### The reset state -/

/-- Settles O42: the five parts of the shape, each evaluated at reset. -/
theorem resetStateIsWellFormed : Obligations.ResetStateIsWellFormed :=
  State.wf_iff.mpr ⟨by decide, rfl, rfl, rfl, rfl⟩

theorem Memory.ofFn_unlisted (n : Nat) : Memory.ofFn n (fun _ => Memory.unlisted) = [] := by
  simp [Memory.ofFn]

theorem State.reset_reg (r : Reg) : State.reset.reg r = 0#32 := by
  simp [State.reg, State.reset]

/-- Settles O43: the memory of a launch whose bytes are all 0 lists nothing, and all else is the value of the field. -/
theorem resetIsTheLaunchOfAnEmptyImage : Obligations.ResetIsTheLaunchOfAnEmptyImage := by
  refine ⟨State.reset_reg, rfl, rfl, fun _ => rfl, rfl, rfl, ?_⟩
  have hbyte : launchByte [] (fun _ => 0x00#8) = fun _ => Memory.unlisted := rfl
  simp only [State.launch, hbyte, Memory.ofFn_unlisted]
  rfl

end Sys2Proof.Machine
end

section
/-! SUPPORT. The memory access of a fetch, a load and a store (20_memory.md R33 to R44): the value a read gives,
the bytes a write leaves, and what a read or a fetch after a store sees. -/

namespace Sys2Proof.Machine

variable {s t u : State} {rd rs1 rs2 : Reg} {imm : Word} {w : Width}

/-! ### Bytes and words of each width -/

theorem Memory.bytesAt_succ (m : Memory) (a n : Nat) :
    m.bytesAt a (n + 1) = m.byteAt a :: m.bytesAt (a + 1) n := by
  simp [Memory.bytesAt, List.range_succ_eq_map, Nat.add_assoc, Nat.add_comm 1]

/-- The sum of R34, its lowest byte taken out. -/
theorem Memory.sum_bytes_succ (m : Memory) (a n : Nat) :
    ((List.range (n + 1)).map fun k => (m.byteAt (a + k)).toNat * 2 ^ (8 * k)).sum =
      2 ^ 8 * ((List.range n).map fun k => (m.byteAt (a + 1 + k)).toNat * 2 ^ (8 * k)).sum + (m.byteAt a).toNat := by
  have hk (k : Nat) : (m.byteAt (a + (k + 1))).toNat * 2 ^ (8 * (k + 1)) =
      2 ^ 8 * ((m.byteAt (a + 1 + k)).toNat * 2 ^ (8 * k)) := by
    rw [Nat.mul_succ, Nat.pow_add, Nat.add_assoc a 1, Nat.add_comm 1]; ring
  simp only [List.range_succ_eq_map, List.map_cons, List.map_map, List.sum_cons, Function.comp_def,
    Nat.succ_eq_add_one, hk, List.sum_map_mul_left]
  simp [Nat.add_comm]

/-- The value of at most four bytes is their little-endian sum, and it stays below `2 ^ (8 * n)`, so that no byte is
shifted out (R34). -/
theorem Memory.toNat_wordOf_bytesAt (m : Memory) (a : Nat) {n : Nat} (hn : n ≤ 4) :
    (wordOf (m.bytesAt a n)).toNat < 2 ^ (8 * n) ∧
      (wordOf (m.bytesAt a n)).toNat =
        ((List.range n).map fun k => (m.byteAt (a + k)).toNat * 2 ^ (8 * k)).sum := by
  induction n generalizing a with
  | zero => exact ⟨Nat.one_pos, rfl⟩
  | succ n ih =>
    obtain ⟨hlt, hsum⟩ := ih (a + 1) (by omega)
    have h24 : (wordOf (m.bytesAt (a + 1) n)).toNat < 2 ^ 24 :=
      hlt.trans_le (Nat.pow_le_pow_right (by decide) (by omega))
    rw [Memory.bytesAt_succ, toNat_wordOf_cons h24]
    refine ⟨?_, by rw [hsum, Memory.sum_bytes_succ]⟩
    have := (m.byteAt a).isLt
    rw [Nat.mul_succ, Nat.pow_add]
    omega

theorem Width.bytes_le_four (w : Width) : w.bytes ≤ 4 := by cases w <;> decide

/-- The low bytes of a word, put together again, are the word modulo the width (R34, R35). -/
theorem toNat_wordOf_bytesOf (v : Word) (w : Width) :
    (wordOf (bytesOf v w.bytes)).toNat = v.toNat % 2 ^ (8 * w.bytes) := by
  cases w with
  | byte =>
    have hb : bytesOf v 1 = [byteOf v 0] := rfl
    simp [Width.bytes, hb, toNat_wordOf_one, byteOf_eq_ofNat]
  | half =>
    have hb : bytesOf v 2 = [byteOf v 0, byteOf v 1] := rfl
    simp only [Width.bytes, hb, toNat_wordOf_two, byteOf_eq_ofNat, BitVec.toNat_ofNat]
    omega
  | word => rw [show Width.word.bytes = 4 from rfl, wordOf_bytesOf, Nat.mod_eq_of_lt v.isLt]

/-- Reading back the bytes just written (R34, R35). -/
theorem Memory.bytesAt_setBytes_bytesOf (m : Memory) (a n : Nat) (v : Word) :
    (m.setBytes a (bytesOf v n)).bytesAt a n = bytesOf v n :=
  List.map_congr_left fun k hk => by
    have hk := List.mem_range.mp hk
    rw [Memory.byteAt_setBytes_bytesOf, if_pos (by omega), byteOf_eq_ofNat, Nat.add_sub_cancel_left]

/-! ### MemRead and MemWrite -/

/-- Settles O37: in range, the value read is the sum, as no width exceeds four bytes; out of range, the bounds
test fails. -/
theorem memReadIsTheLittleEndianSum : Obligations.MemReadIsTheLittleEndianSum := fun s _ addr w =>
  ⟨fun h => ⟨_, State.memRead_inRange h, (s.mem.toNat_wordOf_bytesAt addr.toNat w.bytes_le_four).2⟩,
    State.memRead_outOfRange⟩

/-- Settles O38: in range, only the memory changes, and a byte read after the write is the law of `setBytes`; out of
range, the bounds test fails. -/
theorem memWriteChangesExactlyItsBytes : Obligations.MemWriteChangesExactlyItsBytes := fun s addr w v =>
  ⟨fun h => ⟨_, State.memWrite_inRange h, rfl, rfl, rfl, rfl,
      fun a => s.mem.byteAt_setBytes_bytesOf addr.toNat w.bytes a v⟩,
    State.memWrite_outOfRange⟩

/-! ### A store and what follows it -/

/-- The next state of a store in range is the completed one, not the fault. -/
theorem State.store_next_inRange (hle : (s.effectiveAddress rs1 imm).toNat + w.bytes ≤ s.cfg.memSize)
    (h : s.store w rs1 rs2 imm = .next t) :
    StoreEffect s t (s.effectiveAddress rs1 imm).toNat w.bytes (s.reg rs2) ∧
      t.mem = s.mem.setBytes (s.effectiveAddress rs1 imm).toNat (bytesOf (s.reg rs2) w.bytes) := by
  obtain ⟨hlt, -⟩ | ⟨-, t', ht', heff, -, hmem⟩ := s.store_cases w rs1 rs2 imm
  · exact absurd hlt hle.not_gt
  · cases ht'.symm.trans h
    exact ⟨heff, hmem⟩

/-- The next state of a load in range holds the extended value in its destination. -/
theorem State.load_next_inRange_reg {extend : Word → Word} (hrd : rd ≠ 0)
    (hle : (s.effectiveAddress rs1 imm).toNat + w.bytes ≤ s.cfg.memSize)
    (h : s.load w extend rd rs1 imm = .next t) :
    t.reg rd = extend (wordOf (s.mem.bytesAt (s.effectiveAddress rs1 imm).toNat w.bytes)) := by
  obtain ⟨hlt, -⟩ | ⟨-, hl⟩ := s.load_cases w extend rd rs1 imm
  · exact absurd hlt hle.not_gt
  · cases hl.symm.trans h
    simp [hrd]

/-- A load of the same width from the address just stored to gives the extension of the bytes stored: the store leaves
the base register and MEM_SIZE alone, so the address and the bounds test are the same. -/
theorem State.load_after_store_reg {extend : Word → Word} (hrd : rd ≠ 0)
    (hle : (s.effectiveAddress rs1 imm).toNat + w.bytes ≤ s.cfg.memSize)
    (hst : s.store w rs1 rs2 imm = .next t) (hld : t.load w extend rd rs1 imm = .next u) :
    u.reg rd = extend (wordOf (bytesOf (s.reg rs2) w.bytes)) := by
  obtain ⟨⟨-, hreg, -, -, hcfg⟩, hmem⟩ := State.store_next_inRange hle hst
  have hea : t.effectiveAddress rs1 imm = s.effectiveAddress rs1 imm := State.effectiveAddress_congr (hreg rs1)
  rw [State.load_next_inRange_reg hrd (by rwa [hea, hcfg]) hld, hea, hmem, Memory.bytesAt_setBytes_bytesOf]

/-- The zero-extended low bytes of a word are the word under the mask of the width: what LBU and LHU make of the bytes
stored (R155, R156). -/
theorem zext_wordOf_bytesOf (v mask : Word) (w : Width) (hm : mask.toNat = 2 ^ (8 * w.bytes) - 1) :
    zext ((wordOf (bytesOf v w.bytes)).setWidth (8 * w.bytes)) = v &&& mask := by
  apply BitVec.eq_of_toNat_eq
  rw [zext, BitVec.toNat_setWidth, BitVec.toNat_setWidth, toNat_wordOf_bytesOf, Nat.mod_mod, BitVec.toNat_and, hm,
    Nat.and_two_pow_sub_one_eq_mod]
  exact Nat.mod_eq_of_lt ((Nat.mod_le _ _).trans_lt v.isLt)

/-- Settles O39: each pair is one `store` and one `load` of the same width, so what is left is the extension of the
bytes stored. -/
theorem storeThenLoadReturnsTheStoredValue : Obligations.StoreThenLoadReturnsTheStoredValue := by
  intro s t u rs1 rs2 rd imm hrd
  refine ⟨fun hle hst hld => ?_, fun hle hst hld => ?_, fun hle hst hld => ?_⟩
  · exact (State.load_after_store_reg (w := .word) hrd hle hst hld).trans (wordOf_bytesOf _)
  · exact (State.load_after_store_reg (w := .half) hrd hle hst hld).trans (zext_wordOf_bytesOf _ _ .half rfl)
  · exact (State.load_after_store_reg (w := .byte) hrd hle hst hld).trans (zext_wordOf_bytesOf _ _ .byte rfl)

/-- Settles O40: the store leaves the pc at the address it wrote to, and the four bytes there are the stored word's. -/
theorem nextFetchSeesTheStoredWord : Obligations.NextFetchSeesTheStoredWord := by
  intro s t rs1 rs2 imm hrun hea himg hsize h
  have hea : s.effectiveAddress rs1 imm = s.pc + 4#32 := hea
  have hle : (s.effectiveAddress rs1 imm).toNat + Width.word.bytes ≤ s.cfg.memSize := by rwa [hea]
  obtain ⟨⟨hbyte, -, hpc, hst, hcfg⟩, -⟩ := State.store_next_inRange hle h
  refine ⟨hst.trans hrun, by rwa [hpc, hcfg], by rwa [hpc, hcfg], fun k hk => ?_⟩
  have hin : (s.pc + 4#32).toNat ≤ (s.pc + 4#32).toNat + k ∧
      (s.pc + 4#32).toNat + k < (s.pc + 4#32).toNat + Width.word.bytes :=
    ⟨Nat.le_add_right _ _, Nat.add_lt_add_left hk _⟩
  rw [hbyte, hpc, hea, if_pos hin, Nat.add_sub_cancel_left]

/-! ### A fetch that faults -/

/-- A Running step that is not at the end of the image and whose fetch faults raises that fault (R93, R225). -/
theorem step_of_fetchWord_error {reason : FaultReason} (hr : s.status = .running) (he : s.atEndOfImage = false)
    (hf : s.fetchWord = .error reason) : step s = s.raise reason := by
  simp [step, hr, he, hf]

/-- Settles O14: the end-of-image test passes, and the fetch is a MemRead out of range. -/
theorem fetchOutOfRangeFaults : Obligations.FetchOutOfRangeFaults := fun _ hr himg hsize =>
  step_of_fetchWord_error hr (decide_eq_false himg.not_ge) (State.memRead_outOfRange hsize)

end Sys2Proof.Machine
end

section
/-! SUPPORT. Sign-extended fields and the five immediates: their bits, their ranges, and the sign (30_encoding.md R57 to
R62). -/

namespace Sys2Proof

variable {n : Nat} {w imm : Word}

/-! ### Sign extension -/

theorem getLsbD_sext (f : BitVec n) (k : Nat) :
    (sext f).getLsbD k = (decide (k < 32) && if k < n then f.getLsbD k else f.msb) :=
  BitVec.getLsbD_signExtend f

theorem toInt_sext (f : BitVec n) (hle : n ≤ 32) : (sext f).toInt = f.toInt :=
  BitVec.toInt_signExtend_of_le hle

/-- Sign extension keeps every part of the field. -/
theorem extractLsb'_sext (f : BitVec n) {lo len : Nat} (h : lo + len ≤ n) (hle : n ≤ 32) :
    (sext f).extractLsb' lo len = f.extractLsb' lo len := by
  ext k hk
  simp only [BitVec.getElem_extractLsb', getLsbD_sext, show lo + k < 32 by omega, show lo + k < n by omega,
    decide_true, Bool.true_and, if_true]

/-- A value is the sign extension of its low `n` bits exactly when it lies in their signed range. -/
theorem sext_extractLsb'_eq_iff (hn : 0 < n) (hle : n ≤ 32) :
    sext (imm.extractLsb' 0 n) = imm ↔ -2 ^ (n - 1) ≤ imm.toInt ∧ imm.toInt < 2 ^ (n - 1) := by
  constructor
  · intro h
    rw [← h, toInt_sext _ hle]
    exact ⟨BitVec.le_toInt _, BitVec.toInt_lt⟩
  · rintro ⟨hlo, hhi⟩
    have hcut : (imm.extractLsb' 0 n).toInt = imm.toInt.bmod (2 ^ n) := by
      rw [← BitVec.setWidth_eq_extractLsb' hle, ← BitVec.signExtend_eq_setWidth_of_le _ hle,
        BitVec.toInt_signExtend_eq_toInt_bmod_of_le _ hle]
    obtain ⟨m, rfl⟩ : ∃ m, n = m + 1 := ⟨n - 1, by omega⟩
    rw [Nat.add_sub_cancel] at hlo hhi
    apply BitVec.eq_of_toInt_eq
    rw [toInt_sext _ hle, hcut]
    apply Int.bmod_eq_of_le_mul_two <;> (push_cast; rw [pow_succ]; omega)

theorem sext_extractLsb'_sext (f : BitVec n) (hle : n ≤ 32) : sext ((sext f).extractLsb' 0 n) = sext f := by
  rw [extractLsb'_sext f (Nat.zero_add n).le hle, BitVec.extractLsb'_eq_self]

/-- Sign extension is a left shift to the top and an arithmetic right shift back (R62). -/
theorem sext_eq_shifts (f : BitVec n) (hn : 0 < n) (hle : n ≤ 32) :
    sext f = ((zext f) <<< (32 - n)).sshiftRight (32 - n) := by
  apply BitVec.eq_of_getLsbD_eq
  intro k hk
  simp only [getLsbD_sext, BitVec.getLsbD_sshiftRight, zext, BitVec.getLsbD_shiftLeft, BitVec.getLsbD_setWidth,
    BitVec.msb_eq_getLsbD_last]
  grind

/-- Sign extension puts ones above a field whose top bit is set, and zeros above another (R62). -/
theorem sext_eq_or (f : BitVec n) (hn : 0 < n) :
    sext f = if f.getLsbD (n - 1) then zext f ||| (0xFFFFFFFF#32 <<< n) else zext f := by
  have hones : 0xFFFFFFFF#32 = BitVec.allOnes 32 := by decide
  apply BitVec.eq_of_getLsbD_eq
  intro k hk
  split
  all_goals
    simp only [hones, getLsbD_sext, BitVec.getLsbD_or, zext, BitVec.getLsbD_shiftLeft, BitVec.getLsbD_setWidth,
      BitVec.msb_eq_getLsbD_last, BitVec.getLsbD_allOnes]
    grind

/-! ### The bits of the immediates -/

theorem getLsbD_immIOf (w : Word) {k : Nat} (hk : k < 32) :
    (immIOf w).getLsbD k = if k ≤ 10 then w.getLsbD (k + 20) else w.getLsbD 31 := by
  simp only [immIOf, getLsbD_sext, BitVec.msb_eq_getLsbD_last, BitVec.getLsbD_extractLsb']
  grind

theorem getLsbD_immSOf (w : Word) {k : Nat} (hk : k < 32) :
    (immSOf w).getLsbD k =
      if k ≤ 4 then w.getLsbD (k + 7) else if k ≤ 10 then w.getLsbD (k + 20) else w.getLsbD 31 := by
  simp only [immSOf, getLsbD_sext, BitVec.msb_eq_getLsbD_last, BitVec.getLsbD_extractLsb', BitVec.getLsbD_append]
  grind

theorem getLsbD_immBOf (w : Word) {k : Nat} (hk : k < 32) :
    (immBOf w).getLsbD k =
      if k = 0 then false else if k ≤ 4 then w.getLsbD (k + 7) else if k ≤ 10 then w.getLsbD (k + 20)
      else if k = 11 then w.getLsbD 7 else w.getLsbD 31 := by
  simp only [immBOf, getLsbD_sext, BitVec.msb_eq_getLsbD_last, BitVec.getLsbD_extractLsb', BitVec.getLsbD_append]
  grind

theorem getLsbD_immJOf (w : Word) {k : Nat} (hk : k < 32) :
    (immJOf w).getLsbD k =
      if k = 0 then false else if k ≤ 10 then w.getLsbD (k + 20) else if k = 11 then w.getLsbD 20
      else if k ≤ 19 then w.getLsbD k else w.getLsbD 31 := by
  simp only [immJOf, getLsbD_sext, BitVec.msb_eq_getLsbD_last, BitVec.getLsbD_extractLsb', BitVec.getLsbD_append]
  grind

theorem getLsbD_immUOf (w : Word) {k : Nat} (hk : k < 32) :
    (immUOf w).getLsbD k = if k ≤ 11 then false else w.getLsbD k := by
  simp only [immUOf, BitVec.getLsbD_append, BitVec.getLsbD_extractLsb']
  grind

theorem immUOf_eq_and (w : Word) : immUOf w = w &&& 0xFFFFF000#32 := by
  have hmask : 0xFFFFF000#32 = BitVec.allOnes 32 <<< 12 := by decide
  apply BitVec.eq_of_getLsbD_eq
  intro k hk
  rw [getLsbD_immUOf w hk, hmask, BitVec.getLsbD_and, BitVec.getLsbD_shiftLeft, BitVec.getLsbD_allOnes]
  grind

/-- An immediate whose sign bit is bit 31 of the word is negative exactly when the word is at least 0x80000000 (R62). -/
theorem toInt_neg_iff_of_bit31 (h : imm.getLsbD 31 = w.getLsbD 31) : imm.toInt < 0 ↔ 0x80000000 ≤ w.toNat := by
  have hm : imm.msb = w.msb := by rw [BitVec.msb_eq_getLsbD_last, BitVec.msb_eq_getLsbD_last]; exact h
  rw [BitVec.msb_eq_toInt, BitVec.msb_eq_toNat] at hm
  exact decide_eq_decide.mp hm

/-! ### The ranges of the immediates -/

theorem immWithin_iff {lo hi : Int} : immWithin lo hi imm = true ↔ lo ≤ imm.toInt ∧ imm.toInt ≤ hi := by
  simp [immWithin]

theorem toInt_even (h : imm.getLsbD 0 = false) : imm.toInt % 2 = 0 := by
  have hn : imm.toNat % 2 ≠ 1 := by simpa [BitVec.getLsbD, Nat.testBit_zero] using h
  rw [BitVec.toInt_eq_toNat_cond]
  split <;> omega

/-- I and S immediates are the sign extensions of 12 bits (R57, R58). -/
theorem fitsImm12_iff : fitsImm12 imm = true ↔ sext (imm.extractLsb' 0 12) = imm := by
  rw [fitsImm12, immWithin_iff, sext_extractLsb'_eq_iff (by decide) (by decide)]
  omega

/-- B immediates are the sign extensions of 13 bits whose lowest is 0 (R59). -/
theorem fitsImmB_iff : fitsImmB imm = true ↔ sext (imm.extractLsb' 0 13) = imm ∧ imm.getLsbD 0 = false := by
  rw [fitsImmB, Bool.and_eq_true, immWithin_iff, Bool.not_eq_true', sext_extractLsb'_eq_iff (by decide) (by decide)]
  refine and_congr_left fun h => ?_
  have := toInt_even h
  omega

/-- J immediates are the sign extensions of 21 bits whose lowest is 0 (R61). -/
theorem fitsImmJ_iff : fitsImmJ imm = true ↔ sext (imm.extractLsb' 0 21) = imm ∧ imm.getLsbD 0 = false := by
  rw [fitsImmJ, Bool.and_eq_true, immWithin_iff, Bool.not_eq_true', sext_extractLsb'_eq_iff (by decide) (by decide)]
  refine and_congr_left fun h => ?_
  have := toInt_even h
  omega

theorem fitsImm12_immIOf (w : Word) : fitsImm12 (immIOf w) = true :=
  fitsImm12_iff.mpr (sext_extractLsb'_sext _ (by decide))

theorem fitsImm12_immSOf (w : Word) : fitsImm12 (immSOf w) = true :=
  fitsImm12_iff.mpr (sext_extractLsb'_sext _ (by decide))

theorem fitsImmB_immBOf (w : Word) : fitsImmB (immBOf w) = true :=
  fitsImmB_iff.mpr ⟨sext_extractLsb'_sext _ (by decide), immBOf_even w⟩

theorem fitsImmU_immUOf (w : Word) : fitsImmU (immUOf w) = true :=
  beq_iff_eq.mpr BitVec.setWidth_append_eq_right

theorem fitsImmJ_immJOf (w : Word) : fitsImmJ (immJOf w) = true :=
  fitsImmJ_iff.mpr ⟨sext_extractLsb'_sext _ (by decide), immJOf_even w⟩

end Sys2Proof
end

section
/-! SUPPORT. The Decoder by cases, and putting the fields of a Decoded Instruction together again (30_encoding.md R52 to
R65). -/

namespace Sys2Proof

variable {w imm : Word} {d : Decoded} {op : BitVec 7}

/-! ### The class table -/

theorem classOf_eq_R_iff : classOf op = .R ↔ op = 0x33#7 := by
  unfold classOf; grind

theorem classOf_eq_I_iff : classOf op = .I ↔ op = 0x03#7 ∨ op = 0x13#7 ∨ op = 0x67#7 ∨ op = 0x73#7 := by
  unfold classOf; grind

theorem classOf_eq_S_iff : classOf op = .S ↔ op = 0x23#7 := by
  unfold classOf; grind

theorem classOf_eq_U_iff : classOf op = .U ↔ op = 0x17#7 ∨ op = 0x37#7 := by
  unfold classOf; grind

theorem classOf_eq_B_iff : classOf op = .B ↔ op = 0x63#7 := by
  unfold classOf; grind

theorem classOf_eq_J_iff : classOf op = .J ↔ op = 0x6F#7 := by
  unfold classOf; grind

theorem classOf_eq_Unknown_iff : classOf op = .Unknown ↔
    op ∉ [0x03#7, 0x13#7, 0x17#7, 0x23#7, 0x33#7, 0x37#7, 0x63#7, 0x67#7, 0x6F#7, 0x73#7] := by
  simp only [classOf, List.mem_cons, List.not_mem_nil]
  grind

/-! ### Everything the Decoder can answer -/

/-- `DecodesTo w d`: `d` is the Decoded Instruction of `w`, with the class that says which fields it carries (R52). -/
inductive DecodesTo (w : Word) : Decoded → Prop where
  | r (hc : classOf (opcodeOf w) = .R) :
    DecodesTo w (.r (opcodeOf w) (rdOf w) (rs1Of w) (rs2Of w) (funct3Of w) (funct7Of w))
  | i (hc : classOf (opcodeOf w) = .I) : DecodesTo w (.i (opcodeOf w) (rdOf w) (rs1Of w) (funct3Of w) (immIOf w))
  | s (hc : classOf (opcodeOf w) = .S) : DecodesTo w (.s (opcodeOf w) (rs1Of w) (rs2Of w) (funct3Of w) (immSOf w))
  | u (hc : classOf (opcodeOf w) = .U) : DecodesTo w (.u (opcodeOf w) (rdOf w) (immUOf w))
  | b (hc : classOf (opcodeOf w) = .B) : DecodesTo w (.b (opcodeOf w) (rs1Of w) (rs2Of w) (funct3Of w) (immBOf w))
  | j (hc : classOf (opcodeOf w) = .J) : DecodesTo w (.j (opcodeOf w) (rdOf w) (immJOf w))
  | unknown (hc : classOf (opcodeOf w) = .Unknown) : DecodesTo w (.unknown (opcodeOf w))

theorem decodesTo_decodeClass (w : Word) : DecodesTo w (decodeClass w) := by
  unfold decodeClass
  split
  · next hc => exact .r hc
  · next hc => exact .i hc
  · next hc => exact .s hc
  · next hc => exact .u hc
  · next hc => exact .b hc
  · next hc => exact .j hc
  · next hc => exact .unknown hc

theorem decodeClass_eq_iff : decodeClass w = d ↔ DecodesTo w d := by
  refine ⟨fun h => h ▸ decodesTo_decodeClass w, fun h => ?_⟩
  cases h <;> simp only [decodeClass, *]

/-- `bits[6:0]`, which every case carries (R52). -/
def Decoded.opcode : Decoded → BitVec 7
  | .r op _ _ _ _ _ => op
  | .i op _ _ _ _ => op
  | .s op _ _ _ _ => op
  | .u op _ _ => op
  | .b op _ _ _ _ => op
  | .j op _ _ => op
  | .unknown op => op

/-- The immediate, where there is one, is in the format of the class (R57 to R61). -/
def Decoded.ImmFits : Decoded → Prop
  | .i _ _ _ _ imm => fitsImm12 imm = true
  | .s _ _ _ _ imm => fitsImm12 imm = true
  | .u _ _ imm => fitsImmU imm = true
  | .b _ _ _ _ imm => fitsImmB imm = true
  | .j _ _ imm => fitsImmJ imm = true
  | .r .. => True
  | .unknown .. => True

theorem DecodesTo.class_eq_tag (h : DecodesTo w d) : classOf (opcodeOf w) = d.tag := by
  cases h with
  | r hc | i hc | s hc | u hc | b hc | j hc | unknown hc => exact hc

theorem DecodesTo.opcode_eq (h : DecodesTo w d) : d.opcode = opcodeOf w := by
  cases h <;> rfl

theorem DecodesTo.immFits (h : DecodesTo w d) : d.ImmFits := by
  cases h with
  | r | unknown => trivial
  | i => exact fitsImm12_immIOf w
  | s => exact fitsImm12_immSOf w
  | u => exact fitsImmU_immUOf w
  | b => exact fitsImmB_immBOf w
  | j => exact fitsImmJ_immJOf w

/-! ### From the word to its fields and back -/

/-- The fields of a classified word, put together again, are the word. -/
theorem DecodesTo.encodeDecoded_eq (h : DecodesTo w d) (hd : d.tag ≠ .Unknown) : encodeDecoded d = w := by
  cases h with
  | r =>
    simp only [encodeDecoded, rs2Of, rs1Of, rdOf, regBits_regOf]
    exact (word_eq_fields w).symm
  | i | s | u | b | j =>
    simp (disch := decide) only [encodeDecoded, immIOf, immSOf, immUOf, immBOf, immJOf, extractLsb'_sext, rdOf, rs1Of,
      rs2Of, funct3Of, opcodeOf, regBits_regOf, BitVec.extractLsb'_eq_self, BitVec.extractLsb'_append_eq_of_le,
      BitVec.extractLsb'_append_eq_of_add_le, Nat.reduceSub, BitVec.extractLsb'_append_extractLsb'_eq_extractLsb']
  | unknown => exact absurd rfl hd

/-- An Unknown word keeps its low seven bits alone. -/
theorem DecodesTo.encodeDecoded_unknown (h : DecodesTo w d) (hd : d.tag = .Unknown) :
    encodeDecoded d = w &&& 0x7F#32 := by
  cases h with
  | unknown =>
    apply BitVec.eq_of_toNat_eq
    rw [toNat_mask_opcode, encodeDecoded, zext, BitVec.toNat_setWidth, toNat_opcodeOf]
    omega
  | r | i | s | u | b | j => cases hd

/-! ### From the fields to the word and back -/

/-- The Decoded Instruction with the bits of its immediate that the encoding of its class keeps (R65). -/
def Decoded.kept : Decoded → Decoded
  | .i op rd rs1 f3 imm => .i op rd rs1 f3 (sext (imm.extractLsb' 0 12))
  | .s op rs1 rs2 f3 imm => .s op rs1 rs2 f3 (sext (imm.extractLsb' 5 7 ++ imm.extractLsb' 0 5))
  | .u op rd imm => .u op rd (imm.extractLsb' 12 20 ++ 0#12)
  | .b op rs1 rs2 f3 imm => .b op rs1 rs2 f3 (sext (imm.extractLsb' 12 1 ++ imm.extractLsb' 11 1
      ++ imm.extractLsb' 5 6 ++ imm.extractLsb' 1 4 ++ 0#1))
  | .j op rd imm => .j op rd (sext (imm.extractLsb' 20 1 ++ imm.extractLsb' 12 8 ++ imm.extractLsb' 11 1
      ++ imm.extractLsb' 1 10 ++ 0#1))
  | d => d

theorem opcodeOf_encodeDecoded (d : Decoded) : opcodeOf (encodeDecoded d) = d.opcode := by
  cases d with
  | r | i | s | u | b | j => exact BitVec.extractLsb'_append_eq_right
  | unknown op => exact (BitVec.extractLsb'_setWidth_of_le (by decide)).trans BitVec.extractLsb'_eq_self

/-- The Decoder reads from a word that was put together the fields it was made of. -/
theorem decodeClass_encodeDecoded (hc : classOf d.opcode = d.tag) : decodeClass (encodeDecoded d) = d.kept := by
  have hop := opcodeOf_encodeDecoded d
  rw [decodeClass, hop, hc]
  cases d with
  | unknown => rfl
  | r | i | s | u | b | j =>
    simp (disch := decide) only [Decoded.tag, Decoded.opcode, Decoded.kept, encodeDecoded, immIOf, immSOf, immUOf,
      immBOf, immJOf, rdOf, rs1Of, rs2Of, funct3Of, funct7Of, BitVec.extractLsb'_append_eq_of_le,
      BitVec.extractLsb'_append_eq_of_add_le, Nat.reduceSub, BitVec.extractLsb'_eq_self, regOf_regBits]

theorem extractLsb'_zero_one_of_even (h : imm.getLsbD 0 = false) : 0#1 = imm.extractLsb' 0 1 := by
  ext k hk
  obtain rfl : k = 0 := by omega
  simpa using h.symm

/-- The encoding loses nothing of an immediate in its format: the kept parts are adjacent, and what is left out is zero
or a copy of the sign. -/
theorem Decoded.kept_eq (h : d.ImmFits) : d.kept = d := by
  cases d with
  | r | unknown => rfl
  | i => rw [kept, fitsImm12_iff.mp h]
  | s =>
    simp (disch := decide) only [kept, BitVec.extractLsb'_append_extractLsb'_eq_extractLsb']
    exact congrArg _ (fitsImm12_iff.mp h)
  | u op rd imm =>
    have hlow : 0#12 = imm.extractLsb' 0 12 := by
      rw [← BitVec.setWidth_eq_extractLsb' (by decide)]; exact (beq_iff_eq.mp h).symm
    simp (disch := decide) only [kept, hlow, BitVec.extractLsb'_append_extractLsb'_eq_extractLsb']
    exact congrArg _ BitVec.extractLsb'_eq_self
  | b op rs1 rs2 f3 imm =>
    obtain ⟨hs, h0⟩ := fitsImmB_iff.mp h
    simp (disch := decide) only [kept, extractLsb'_zero_one_of_even h0,
      BitVec.extractLsb'_append_extractLsb'_eq_extractLsb']
    exact congrArg _ hs
  | j op rd imm =>
    obtain ⟨hs, h0⟩ := fitsImmJ_iff.mp h
    simp (disch := decide) only [kept, extractLsb'_zero_one_of_even h0,
      BitVec.extractLsb'_append_extractLsb'_eq_extractLsb']
    exact congrArg _ hs

/-! ### The obligations about the Decoder -/

/-- Settles O1: the tag is the class of the opcode, and the class table is read off class by class. -/
theorem opcodeDecidesTheClass : Obligations.OpcodeDecidesTheClass := by
  intro w
  simp only [← (decodesTo_decodeClass w).class_eq_tag, classOf_eq_R_iff, classOf_eq_I_iff, classOf_eq_S_iff,
    classOf_eq_U_iff, classOf_eq_B_iff, classOf_eq_J_iff, classOf_eq_Unknown_iff, List.mem_cons, List.not_mem_nil,
    ← BitVec.toNat_inj, toNat_opcodeOf]
  exact ⟨.rfl, .rfl, .rfl, .rfl, .rfl, .rfl, .rfl⟩

/-- Settles O2: each case of `DecodesTo` names the field of the word that it carries. -/
theorem decoderExtractsFieldsAtFixedBits : Obligations.DecoderExtractsFieldsAtFixedBits := by
  intro w
  refine ⟨?_, ?_, ?_, ?_, ?_⟩
  · intro op rd rs1 rs2 f3 f7 h
    cases decodeClass_eq_iff.mp h
    exact ⟨toNat_opcodeOf w, val_rdOf w, val_rs1Of w, val_rs2Of w, toNat_funct3Of w, toNat_funct7Of w⟩
  · intro op rd rs1 f3 imm h
    cases decodeClass_eq_iff.mp h
    exact ⟨toNat_opcodeOf w, val_rdOf w, val_rs1Of w, toNat_funct3Of w⟩
  · rintro op rs1 rs2 f3 imm (h | h) <;> cases decodeClass_eq_iff.mp h
    all_goals exact ⟨toNat_opcodeOf w, val_rs1Of w, val_rs2Of w, toNat_funct3Of w⟩
  · rintro op rd imm (h | h) <;> cases decodeClass_eq_iff.mp h
    all_goals exact ⟨toNat_opcodeOf w, val_rdOf w⟩
  · intro op h
    cases decodeClass_eq_iff.mp h
    exact toNat_opcodeOf w

/-- Settles O3: the bits of each immediate, and its range because it is in its format. -/
theorem decoderReconstructsSignedImmediates : Obligations.DecoderReconstructsSignedImmediates := by
  intro w
  refine ⟨?_, ?_, ?_, ?_⟩
  · intro op rd rs1 f3 imm h
    cases decodeClass_eq_iff.mp h
    exact ⟨fun k => getLsbD_immIOf w, immWithin_iff.mp (fitsImm12_immIOf w)⟩
  · intro op rs1 rs2 f3 imm h
    cases decodeClass_eq_iff.mp h
    exact ⟨fun k => getLsbD_immSOf w, immWithin_iff.mp (fitsImm12_immSOf w)⟩
  · intro op rs1 rs2 f3 imm h
    cases decodeClass_eq_iff.mp h
    exact ⟨fun k => getLsbD_immBOf w, immWithin_iff.mp (Bool.and_elim_left (fitsImmB_immBOf w))⟩
  · intro op rd imm h
    cases decodeClass_eq_iff.mp h
    exact ⟨fun k => getLsbD_immJOf w, immWithin_iff.mp (Bool.and_elim_left (fitsImmJ_immJOf w))⟩

/-- Settles O4: a multiple of 4096 is the immediate of the LUI word put together from it. -/
theorem decoderPlacesTheUpperImmediate : Obligations.DecoderPlacesTheUpperImmediate := by
  constructor
  · intro w op rd imm h
    cases decodeClass_eq_iff.mp h
    exact ⟨immUOf_eq_and w, fun k => getLsbD_immUOf w⟩
  · intro v hv
    have hfit : (Decoded.u 0x37#7 0 v).ImmFits :=
      beq_iff_eq.mpr (BitVec.eq_of_toNat_eq ((BitVec.toNat_setWidth ..).trans hv))
    exact ⟨_, _, _, (decodeClass_encodeDecoded rfl).trans (Decoded.kept_eq hfit)⟩

/-- Settles O5: sign extension bit by bit, and bit 31 of each immediate is bit 31 of the word. -/
theorem signExtensionIsExact : Obligations.SignExtensionIsExact := by
  refine ⟨fun n f hn hle => ⟨sext_eq_shifts f hn hle, sext_eq_or f hn⟩, ?_, ?_⟩
  · rintro w op a b f3 imm (h | h | h) <;> cases decodeClass_eq_iff.mp h
    · exact toInt_neg_iff_of_bit31 (getLsbD_immIOf w (by decide))
    · exact toInt_neg_iff_of_bit31 (getLsbD_immSOf w (by decide))
    · exact toInt_neg_iff_of_bit31 (getLsbD_immBOf w (by decide))
  · intro w op rd imm h
    cases decodeClass_eq_iff.mp h
    exact toInt_neg_iff_of_bit31 (getLsbD_immJOf w (by decide))

/-- Settles O8: the fields and the immediate of a classified word hold all its bits. -/
theorem decoderDropsNoBitOfAClassifiedWord : Obligations.DecoderDropsNoBitOfAClassifiedWord := fun w =>
  ⟨(decodesTo_decodeClass w).encodeDecoded_eq, (decodesTo_decodeClass w).encodeDecoded_unknown⟩

end Sys2Proof
end

section
/-! SUPPORT. The selection and the fields of an instruction are inverse to each other, and so are decoding and encoding
(30_encoding.md R65, R70; 40_step_cycle.md R95). -/

namespace Sys2Proof

variable {w imm : Word} {d : Decoded} {i : Instr} {rd rs1 rs2 : Reg} {f3 : BitVec 3} {f7 up : BitVec 7}

/-! ### The immediate of a shift -/

/-- Upper bits that leave bit 11 clear make an immediate that is its own sign extension (R131). -/
theorem zext_shift (hup : up.msb = false) (shamt : BitVec 5) : zext (up ++ shamt) = sext (up ++ shamt) :=
  (BitVec.signExtend_eq_setWidth_of_msb_false (by rw [BitVec.msb_append]; exact hup)).symm

theorem fitsImm12_shift (hup : up.msb = false) (shamt : BitVec 5) : fitsImm12 (zext (up ++ shamt)) = true := by
  rw [zext_shift hup, fitsImm12_iff]
  exact sext_extractLsb'_sext _ (by decide)

theorem extractLsb'_shift_upper (up : BitVec 7) (shamt : BitVec 5) : (zext (up ++ shamt)).extractLsb' 5 7 = up := by
  rw [zext, BitVec.extractLsb'_setWidth_of_le (by decide), BitVec.extractLsb'_append_eq_left]

theorem extractLsb'_shift_amount (up : BitVec 7) (shamt : BitVec 5) :
    (zext (up ++ shamt)).extractLsb' 0 5 = shamt := by
  rw [zext, BitVec.extractLsb'_setWidth_of_le (by decide), BitVec.extractLsb'_append_eq_right]

/-- A shift-immediate is its upper bits and its shift amount. -/
theorem shift_eq_imm (hup : up.msb = false) (hi : fitsImm12 imm = true) (h : imm.extractLsb' 5 7 = up) :
    zext (up ++ imm.extractLsb' 0 5) = imm := by
  rw [zext_shift hup, ← h]
  simp (disch := decide) only [BitVec.extractLsb'_append_extractLsb'_eq_extractLsb']
  exact fitsImm12_iff.mp hi

/-! ### From the instruction to its fields and back -/

theorem class_fieldsOf (i : Instr) : classOf (fieldsOf i).opcode = (fieldsOf i).tag := by
  cases i <;> rfl

theorem tag_fieldsOf_ne_unknown (i : Instr) : (fieldsOf i).tag ≠ .Unknown := by
  cases i <;> exact nofun

/-- The fields of an instruction hold an immediate in its format exactly when the instruction is well-formed. -/
theorem immFits_fieldsOf_iff : (i : Instr) → ((fieldsOf i).ImmFits ↔ i.wellFormed = true)
  | .add .. | .sub .. | .sll .. | .slt .. | .sltu .. | .xor .. | .srl .. | .sra .. | .or .. | .and .. =>
    iff_of_true trivial rfl
  | .slli _ _ shamt | .srli _ _ shamt | .srai _ _ shamt => iff_of_true (fitsImm12_shift rfl shamt) rfl
  | .ecall => iff_of_true rfl rfl
  | .addi .. | .slti .. | .sltiu .. | .xori .. | .ori .. | .andi .. | .lb .. | .lh .. | .lw .. | .lbu .. | .lhu ..
  | .jalr .. | .sb .. | .sh .. | .sw .. | .lui .. | .auipc .. | .beq .. | .bne .. | .blt .. | .bge .. | .bltu ..
  | .bgeu .. | .jal .. => Iff.rfl

theorem select_imm : select (.i 0x13#7 rd rs1 f3 imm) = selectImm rd rs1 f3 imm := rfl

theorem select_load : select (.i 0x03#7 rd rs1 f3 imm) = selectLoad rd rs1 f3 imm := rfl

theorem select_jalr : select (.i 0x67#7 rd rs1 f3 imm) = selectJalr rd rs1 f3 imm := rfl

theorem select_system : select (.i 0x73#7 rd rs1 f3 imm) = selectSystem rd rs1 f3 imm := rfl

/-- The selection finds each instruction from its fields. -/
theorem select_fieldsOf (i : Instr) : select (fieldsOf i) = .ok i := by
  cases i with
  | slli | srli | srai =>
    simp [fieldsOf, select_imm, selectImm, extractLsb'_shift_upper, extractLsb'_shift_amount]
  | _ => rfl

/-! ### From the fields to the instruction and back -/

theorem fieldsOf_of_selectR (h : selectR rd rs1 rs2 f3 f7 = .ok i) : fieldsOf i = .r 0x33#7 rd rs1 rs2 f3 f7 := by
  unfold selectR at h
  split at h
  · subst f7
    split at h <;> (cases h; rfl)
  · split_ifs at h <;> (cases h; subst_vars; rfl)

theorem fieldsOf_of_selectImm (hi : fitsImm12 imm = true) (h : selectImm rd rs1 f3 imm = .ok i) :
    fieldsOf i = .i 0x13#7 rd rs1 f3 imm := by
  unfold selectImm at h
  dsimp only at h
  split at h
  case h_2 | h_6 =>
    split_ifs at h <;> cases h
    all_goals exact congrArg _ (shift_eq_imm rfl hi ‹_›)
  all_goals (cases h; rfl)

theorem fieldsOf_of_selectLoad (h : selectLoad rd rs1 f3 imm = .ok i) : fieldsOf i = .i 0x03#7 rd rs1 f3 imm := by
  unfold selectLoad at h
  split_ifs at h <;> (cases h; subst f3; rfl)

theorem fieldsOf_of_selectJalr (h : selectJalr rd rs1 f3 imm = .ok i) : fieldsOf i = .i 0x67#7 rd rs1 f3 imm := by
  unfold selectJalr at h
  split_ifs at h
  cases h; subst f3; rfl

theorem fieldsOf_of_selectSystem (h : selectSystem rd rs1 f3 imm = .ok i) :
    fieldsOf i = .i 0x73#7 rd rs1 f3 imm := by
  unfold selectSystem at h
  split_ifs at h with hzero
  obtain ⟨rfl, rfl, rfl, rfl⟩ := hzero
  cases h; rfl

theorem fieldsOf_of_selectStore (h : selectStore rs1 rs2 f3 imm = .ok i) :
    fieldsOf i = .s 0x23#7 rs1 rs2 f3 imm := by
  unfold selectStore at h
  split_ifs at h <;> (cases h; subst f3; rfl)

theorem fieldsOf_of_selectBranch (h : selectBranch rs1 rs2 f3 imm = .ok i) :
    fieldsOf i = .b 0x63#7 rs1 rs2 f3 imm := by
  unfold selectBranch at h
  split_ifs at h <;> (cases h; subst f3; rfl)

/-- The fields of a selected instruction are the ones it was selected by. -/
theorem fieldsOf_of_select (hc : classOf d.opcode = d.tag) (hi : d.ImmFits) (h : select d = .ok i) :
    fieldsOf i = d := by
  cases d with
  | r op =>
    obtain rfl : op = _ := classOf_eq_R_iff.mp hc
    exact fieldsOf_of_selectR h
  | i op =>
    obtain rfl | rfl | rfl | rfl : op = _ ∨ op = _ ∨ op = _ ∨ op = _ := classOf_eq_I_iff.mp hc
    · exact fieldsOf_of_selectLoad h
    · exact fieldsOf_of_selectImm hi h
    · exact fieldsOf_of_selectJalr h
    · exact fieldsOf_of_selectSystem h
  | s op =>
    obtain rfl : op = _ := classOf_eq_S_iff.mp hc
    exact fieldsOf_of_selectStore h
  | u op =>
    obtain rfl | rfl : op = _ ∨ op = _ := classOf_eq_U_iff.mp hc
    all_goals (cases h; rfl)
  | b op =>
    obtain rfl : op = _ := classOf_eq_B_iff.mp hc
    exact fieldsOf_of_selectBranch h
  | j op =>
    obtain rfl : op = _ := classOf_eq_J_iff.mp hc
    cases h; rfl
  | unknown => cases h

/-! ### Decoding and encoding -/

theorem decode_encode (h : i.wellFormed = true) : decode (encode i) = .ok i := by
  rw [decode, encode, decodeClass_encodeDecoded (class_fieldsOf i), Decoded.kept_eq ((immFits_fieldsOf_iff i).mpr h),
    select_fieldsOf]

theorem decodeBytes_bytesOf (w : Word) (rest : List Byte) :
    decodeBytes (bytesOf w 4 ++ rest) = (decode w).map fun i => (i, rest) :=
  congrArg (fun v => (decode v).map fun i => (i, rest)) (wordOf_bytesOf w)

theorem fieldsOf_of_decode (h : decode w = .ok i) : fieldsOf i = decodeClass w :=
  have hw := decodesTo_decodeClass w
  fieldsOf_of_select (hw.opcode_eq ▸ hw.class_eq_tag) hw.immFits h

theorem wellFormed_of_decode (h : decode w = .ok i) : i.wellFormed = true :=
  (immFits_fieldsOf_iff i).mp (fieldsOf_of_decode h ▸ (decodesTo_decodeClass w).immFits)

theorem encode_of_decode (h : decode w = .ok i) : encode i = w := by
  have hw : DecodesTo w (fieldsOf i) := fieldsOf_of_decode h ▸ decodesTo_decodeClass w
  exact hw.encodeDecoded_eq (tag_fieldsOf_ne_unknown i)

/-- Settles O6: the Decoder gives back the fields the encoder put together, and the selection the instruction they are
the fields of. -/
theorem decodeOfEncodeIsTheInstruction : Obligations.DecodeOfEncodeIsTheInstruction := fun i h =>
  ⟨decode_encode h, fun rest => by rw [encodeBytes, decodeBytes_bytesOf, decode_encode h]; rfl⟩

/-- Settles O7: the fields of the selected instruction are the decoded ones, which hold every bit of the word. -/
theorem encodeOfDecodeIsTheWord : Obligations.EncodeOfDecodeIsTheWord := fun _ _ h =>
  ⟨wellFormed_of_decode h, encode_of_decode h⟩

end Sys2Proof
end

section
/-! SUPPORT. The illegal words class by class (30_encoding.md R72), and decoding against the opcode map (R70). -/

namespace Sys2Proof

variable {w imm : Word} {rd rs1 rs2 : Reg} {f3 : BitVec 3} {f7 : BitVec 7}

/-! ### When each selector rejects -/

theorem selectR_rejects_iff : (∃ e, selectR rd rs1 rs2 f3 f7 = .error e) ↔
    (f3.toNat = 0 ∨ f3.toNat = 5) ∧ f7.toNat ≠ 0x00 ∧ f7.toNat ≠ 0x20 ∨
      f3.toNat ≠ 0 ∧ f3.toNat ≠ 5 ∧ f7.toNat ≠ 0x00 := by
  simp only [selectR, ← BitVec.toNat_inj, BitVec.toNat_ofNat, Nat.reducePow, Nat.reduceMod]
  split
  · split <;> simp [*]
  · split_ifs <;> simp [*]
    omega

theorem selectImm_rejects_iff : (∃ e, selectImm rd rs1 f3 imm = .error e) ↔
    f3.toNat = 1 ∧ (imm.extractLsb' 5 7).toNat ≠ 0x00 ∨
      f3.toNat = 5 ∧ (imm.extractLsb' 5 7).toNat ≠ 0x00 ∧ (imm.extractLsb' 5 7).toNat ≠ 0x20 := by
  simp only [selectImm, ← BitVec.toNat_inj, BitVec.toNat_ofNat, Nat.reducePow, Nat.reduceMod]
  generalize imm.extractLsb' 5 7 = up, imm.extractLsb' 0 5 = shamt
  split
  case h_2 | h_6 => split_ifs <;> simp [*]
  all_goals simp

theorem selectLoad_rejects_iff : (∃ e, selectLoad rd rs1 f3 imm = .error e) ↔
    f3.toNat = 3 ∨ f3.toNat = 6 ∨ f3.toNat = 7 := by
  have := f3.isLt
  simp only [selectLoad, ← BitVec.toNat_inj, BitVec.toNat_ofNat, Nat.reducePow, Nat.reduceMod]
  split_ifs <;> simp [*]
  omega

theorem selectJalr_rejects_iff : (∃ e, selectJalr rd rs1 f3 imm = .error e) ↔ f3.toNat ≠ 0 := by
  simp only [selectJalr, ← BitVec.toNat_inj, BitVec.toNat_ofNat, Nat.reducePow, Nat.reduceMod]
  split_ifs <;> simp [*]

theorem selectStore_rejects_iff : (∃ e, selectStore rs1 rs2 f3 imm = .error e) ↔ 3 ≤ f3.toNat := by
  simp only [selectStore, ← BitVec.toNat_inj, BitVec.toNat_ofNat, Nat.reducePow, Nat.reduceMod]
  split_ifs <;> simp [*]
  omega

theorem selectBranch_rejects_iff : (∃ e, selectBranch rs1 rs2 f3 imm = .error e) ↔
    f3.toNat = 2 ∨ f3.toNat = 3 := by
  have := f3.isLt
  simp only [selectBranch, ← BitVec.toNat_inj, BitVec.toNat_ofNat, Nat.reducePow, Nat.reduceMod]
  split_ifs <;> simp [*]
  omega

theorem selectSystem_cases (rd rs1 : Reg) (f3 : BitVec 3) (imm : Word) :
    selectSystem rd rs1 f3 imm = .ok .ecall ∨ selectSystem rd rs1 f3 imm = .error .system := by
  unfold selectSystem
  split_ifs
  · exact .inl rfl
  · exact .inr rfl

theorem decode_eq_ecall_iff : decode w = .ok .ecall ↔ w = 0x00000073#32 :=
  ⟨fun h => (encode_of_decode h).symm, fun h => h ▸ by decide⟩

/-- A SYSTEM word other than ECALL is rejected: ECALL has one word. -/
theorem selectSystem_rejects_iff (hc : classOf (opcodeOf w) = .I) (hop : opcodeOf w = 0x73#7) :
    (∃ e, selectSystem (rdOf w) (rs1Of w) (funct3Of w) (immIOf w) = .error e) ↔ w ≠ 0x00000073#32 := by
  have hdec : decode w = selectSystem (rdOf w) (rs1Of w) (funct3Of w) (immIOf w) := by
    rw [decode, decodeClass_eq_iff.mpr (.i hc), hop, select_system]
  rw [ne_eq, ← decode_eq_ecall_iff, hdec]
  obtain hs | hs := selectSystem_cases (rdOf w) (rs1Of w) (funct3Of w) (immIOf w) <;> simp [hs]

theorem toNat_immIOf_upper (w : Word) : ((immIOf w).extractLsb' 5 7).toNat = w.toNat / 2 ^ 25 := by
  have := w.isLt
  rw [immIOf, extractLsb'_sext _ (by decide) (by decide), BitVec.extractLsb'_toNat, toNat_field,
    Nat.shiftRight_eq_div_pow]
  omega

/-- Settles O10: opcode by opcode, the selector of the class rejects the listed funct3 and upper bits. -/
theorem illegalWordsAreExactlyTheListed : Obligations.IllegalWordsAreExactlyTheListed := by
  intro w op f3 f7
  have hop : op = (opcodeOf w).toNat := (toNat_opcodeOf w).symm
  have hf3 : (funct3Of w).toNat = f3 := toNat_funct3Of w
  have hf7 : (funct7Of w).toNat = f7 := toNat_funct7Of w
  have hup : ((immIOf w).extractLsb' 5 7).toNat = f7 := toNat_immIOf_upper w
  clear_value op f3 f7
  rw [decode]
  have hw := decodesTo_decodeClass w
  generalize decodeClass w = d at hw
  cases hw with
  | r hc =>
    rw [select, selectR_rejects_iff, hf3, hf7, hop, classOf_eq_R_iff.mp hc]
    simp
  | i hc =>
    obtain h | h | h | h := classOf_eq_I_iff.mp hc
    · rw [h, select_load, selectLoad_rejects_iff, hf3, hop, h]
      simp
    · rw [h, select_imm, selectImm_rejects_iff, hup, hf3, hop, h]
      simp
    · rw [h, select_jalr, selectJalr_rejects_iff, hf3, hop, h]
      simp
    · rw [h, select_system, selectSystem_rejects_iff hc h, hop, h]
      simp
  | s hc =>
    rw [select, selectStore_rejects_iff, hf3, hop, classOf_eq_S_iff.mp hc]
    simp
  | u hc =>
    obtain h | h := classOf_eq_U_iff.mp hc
    all_goals simp [select, h, hop]
  | b hc =>
    rw [select, selectBranch_rejects_iff, hf3, hop, classOf_eq_B_iff.mp hc]
    simp
  | j hc => simp [select, classOf_eq_J_iff.mp hc, hop]
  | unknown hc =>
    rw [classOf_eq_Unknown_iff] at hc
    refine iff_of_true ⟨_, rfl⟩ (.inl ?_)
    simpa [← BitVec.toNat_inj, hop] using hc

/-! ### The opcode map -/

/-- The encoding of every instruction matches the row of its mnemonic. -/
theorem opcodeRow : (i : Instr) → Laws.OpcodeRow.Statement i
  | .add .. => Laws.OpcodeRow.add ..
  | .sub .. => Laws.OpcodeRow.sub ..
  | .sll .. => Laws.OpcodeRow.sll ..
  | .slt .. => Laws.OpcodeRow.slt ..
  | .sltu .. => Laws.OpcodeRow.sltu ..
  | .xor .. => Laws.OpcodeRow.xor ..
  | .srl .. => Laws.OpcodeRow.srl ..
  | .sra .. => Laws.OpcodeRow.sra ..
  | .or .. => Laws.OpcodeRow.or ..
  | .and .. => Laws.OpcodeRow.and ..
  | .addi .. => Laws.OpcodeRow.addi ..
  | .slli .. => Laws.OpcodeRow.slli ..
  | .slti .. => Laws.OpcodeRow.slti ..
  | .sltiu .. => Laws.OpcodeRow.sltiu ..
  | .xori .. => Laws.OpcodeRow.xori ..
  | .srli .. => Laws.OpcodeRow.srli ..
  | .srai .. => Laws.OpcodeRow.srai ..
  | .ori .. => Laws.OpcodeRow.ori ..
  | .andi .. => Laws.OpcodeRow.andi ..
  | .lb .. => Laws.OpcodeRow.lb ..
  | .lh .. => Laws.OpcodeRow.lh ..
  | .lw .. => Laws.OpcodeRow.lw ..
  | .lbu .. => Laws.OpcodeRow.lbu ..
  | .lhu .. => Laws.OpcodeRow.lhu ..
  | .jalr .. => Laws.OpcodeRow.jalr ..
  | .sb .. => Laws.OpcodeRow.sb ..
  | .sh .. => Laws.OpcodeRow.sh ..
  | .sw .. => Laws.OpcodeRow.sw ..
  | .lui .. => Laws.OpcodeRow.lui ..
  | .auipc .. => Laws.OpcodeRow.auipc ..
  | .beq .. => Laws.OpcodeRow.beq ..
  | .bne .. => Laws.OpcodeRow.bne ..
  | .blt .. => Laws.OpcodeRow.blt ..
  | .bge .. => Laws.OpcodeRow.bge ..
  | .bltu .. => Laws.OpcodeRow.bltu ..
  | .bgeu .. => Laws.OpcodeRow.bgeu ..
  | .jal .. => Laws.OpcodeRow.jal ..
  | .ecall => Laws.OpcodeRow.ecall

/-- Two rows differ in a bit that both their masks test. -/
theorem opcodeTable_pairwise :
    opcodeTable.Pairwise fun r s => r.2.1 &&& s.2.2 ≠ s.2.1 &&& r.2.2 := by decide

theorem opcodeTable_index_unique {j k : Nat} (hj : j < opcodeTable.length) (hk : k < opcodeTable.length)
    (hwj : w &&& opcodeTable[j].2.2 = opcodeTable[j].2.1) (hwk : w &&& opcodeTable[k].2.2 = opcodeTable[k].2.1) :
    j = k := by
  have hne := List.pairwise_iff_getElem.mp opcodeTable_pairwise
  have heq : opcodeTable[j].2.1 &&& opcodeTable[k].2.2 = opcodeTable[k].2.1 &&& opcodeTable[j].2.2 := by
    rw [← hwj, ← hwk, BitVec.and_assoc, BitVec.and_assoc, BitVec.and_comm opcodeTable[j].2.2]
  obtain h | h | h := Nat.lt_trichotomy j k
  · exact absurd heq (hne j k hj hk h)
  · exact h
  · exact absurd heq.symm (hne k j hk hj h)

theorem opcodeTable_row_unique {r s : String × Word × Word} (hr : r ∈ opcodeTable) (hs : s ∈ opcodeTable)
    (hwr : w &&& r.2.2 = r.2.1) (hws : w &&& s.2.2 = s.2.1) : r = s := by
  obtain ⟨j, hj, rfl⟩ := List.getElem_of_mem hr
  obtain ⟨k, hk, rfl⟩ := List.getElem_of_mem hs
  obtain rfl := opcodeTable_index_unique hj hk hwr hws
  rfl

/-- A word that matches a row is none of the listed illegal ones: its opcode, funct3 and upper bits are the row's, as
far as the mask tests them. -/
theorem row_not_illegal : ∀ row ∈ opcodeTable, w &&& row.2.2 = row.2.1 → ¬∃ e, decode w = .error e := by
  have := w.isLt
  simp only [illegalWordsAreExactlyTheListed w, opcodeTable, opcodeTableR, opcodeTableI, opcodeTableSUBJ,
    List.cons_append, List.nil_append, List.forall_mem_cons]
  simp only [ne_eq, ← BitVec.toNat_inj, BitVec.toNat_ofNat, toNat_mask_funct7, toNat_mask_funct3, toNat_mask_opcode,
    mask_all, List.mem_cons, List.not_mem_nil, IsEmpty.forall_iff, implies_true, and_true, Nat.reducePow, Nat.reduceMod]
  and_intros
  all_goals omega

theorem exists_decode_of_row {row : String × Word × Word} (hrow : row ∈ opcodeTable) (h : w &&& row.2.2 = row.2.1) :
    ∃ i, decode w = .ok i := by
  cases hd : decode w with
  | ok i => exact ⟨i, rfl⟩
  | error e => exact absurd ⟨e, hd⟩ (row_not_illegal row hrow h)

/-- Settles O9: a decoded word is its instruction's encoding, which matches the row of the mnemonic; and a word that
matches a row decodes, to an instruction whose own row can only be the same one. -/
theorem decodeAgreesWithTheOpcodeMap : Obligations.DecodeAgreesWithTheOpcodeMap := by
  refine ⟨fun w m => ⟨?_, ?_⟩, fun w j k hj hk => opcodeTable_index_unique hj hk⟩
  · rintro ⟨i, hd, rfl⟩
    obtain ⟨row, hrow, hm, hmatch⟩ := opcodeRow i
    exact ⟨row, hrow, hm, encode_of_decode hd ▸ hmatch⟩
  · rintro ⟨row, hrow, rfl, hmatch⟩
    obtain ⟨i, hd⟩ := exists_decode_of_row hrow hmatch
    obtain ⟨row', hrow', hm, hmatch'⟩ := opcodeRow i
    rw [encode_of_decode hd] at hmatch'
    exact ⟨i, hd, hm.symm.trans (congrArg _ (opcodeTable_row_unique hrow' hrow hmatch' hmatch))⟩

end Sys2Proof
end

section
/-! SUPPORT. The step cycle (40_step_cycle.md R90 to R99): what a Running step does case by case, that it always has a next
state, and how much of the registers and the memory it can change. -/

namespace Sys2Proof.Machine

variable {s t : State} {i : Instr} {r : Result} {rs1 rs2 : Reg} {imm : Word} {w : Width}

/-! ### The cases of a Running step -/

theorem step_of_atEndOfImage (hr : s.status = .running) (he : s.atEndOfImage = true) :
    step s = s.halt .endOfImage := by
  simp [step, hr, he]

theorem step_of_decode_ok {word : Word} (hr : s.status = .running) (he : s.atEndOfImage = false)
    (hf : s.fetchWord = .ok word) (hd : decode word = .ok i) : step s = exec i s := by
  simp [step, hr, he, hf, hd]

theorem step_of_decode_error {word : Word} {e : Reject} (hr : s.status = .running) (he : s.atEndOfImage = false)
    (hf : s.fetchWord = .ok word) (hd : decode word = .error e) : step s = s.raise (.invalidEncoding s.pc word) := by
  simp [step, hr, he, hf, hd]

theorem AboutToExecute.running {word : Word} (ha : AboutToExecute s word) : s.status = .running := ha.1

theorem AboutToExecute.not_atEndOfImage {word : Word} (ha : AboutToExecute s word) : s.atEndOfImage = false := by
  obtain ⟨-, himg, -, -⟩ := ha
  exact decide_eq_false himg.not_ge

theorem AboutToExecute.step_eq_exec {word : Word} (ha : AboutToExecute s word) (hd : decode word = .ok i) :
    step s = exec i s :=
  step_of_decode_ok ha.running ha.not_atEndOfImage (State.fetchWord_of_aboutToExecute ha) hd

/-- Settles O12: the end-of-image test fails, and the four bytes are fetched as the word that decodes to `i`. -/
theorem stepRunsTheDecodedInstruction : Obligations.StepRunsTheDecodedInstruction := fun _ _ _ ha hd =>
  ha.step_eq_exec hd

/-- Settles O13: the end-of-image test is the first one, and `halt` changes the status alone. -/
theorem endOfImageEndsTheRun : Obligations.EndOfImageEndsTheRun := fun _ hr himg =>
  step_of_atEndOfImage hr (decide_eq_true himg)

/-! ### A step exists -/

/-- Every shared operation answers a next state: a load or a store out of range answers the faulted one. -/
theorem ExecShape.exists_next (shape : ExecShape s i r) : ∃ t, r = .next t := by
  cases shape with
  | result | jump | branch | ecall => exact ⟨_, rfl⟩
  | load w extend rs1 imm =>
    obtain ⟨-, hf⟩ | ⟨-, hl⟩ := s.load_cases w extend _ rs1 imm
    · exact ⟨_, hf⟩
    · exact ⟨_, hl⟩
  | store w rs1 rs2 imm =>
    obtain ⟨-, hf⟩ | ⟨-, t, ht, -⟩ := s.store_cases w rs1 rs2 imm
    · exact ⟨_, hf⟩
    · exact ⟨t, ht⟩

theorem step_exists_next (hr : s.status = .running) : ∃ t, step s = .next t := by
  cases he : s.atEndOfImage with
  | true => exact ⟨_, step_of_atEndOfImage hr he⟩
  | false =>
    cases hf : s.fetchWord with
    | error reason => exact ⟨_, step_of_fetchWord_error hr he hf⟩
    | ok word =>
      cases hd : decode word with
      | error e => exact ⟨_, step_of_decode_error hr he hf hd⟩
      | ok i =>
        rw [step_of_decode_ok hr he hf hd]
        exact (exec_shape s i).exists_next

/-- Settles O16: a Running step stops or is an instruction, and each of them has a next state; the other two statuses
are the first test of the step. -/
theorem stepExistsExactlyWhenRunning : Obligations.StepExistsExactlyWhenRunning := fun s =>
  ⟨step_exists_next, fun reason h => by simp [step, h], fun reason h => by simp [step, h]⟩

/-! ### What a step can change -/

theorem exec_changes_at_most_one_reg (h : exec i s = .next t) : ∃ rd : Reg, ∀ q : Reg, q ≠ rd → t.reg q = s.reg q := by
  obtain hregs | ⟨rd, v, -, hregs⟩ := exec_regs h
  · exact ⟨0, fun q _ => State.reg_congr q hregs⟩
  · refine ⟨rd, fun q hq => ?_⟩
    rw [State.reg_congr q hregs, State.setReg_reg, if_neg fun hc => hq hc.1]

/-- A store, in range or not, leaves the registers and every byte outside its window as they were. -/
theorem State.store_frame (h : s.store w rs1 rs2 imm = .next t) :
    (∀ q : Reg, t.reg q = s.reg q) ∧
      ∀ a : Nat, ¬((s.effectiveAddress rs1 imm).toNat ≤ a ∧ a < (s.effectiveAddress rs1 imm).toNat + w.bytes) →
        t.mem.byteAt a = s.mem.byteAt a := by
  obtain ⟨-, hf⟩ | ⟨-, u, hu, ⟨hbyte, hreg, -⟩, -⟩ := s.store_cases w rs1 rs2 imm
  · cases hf.symm.trans h
    exact ⟨fun _ => rfl, fun _ _ => rfl⟩
  · cases hu.symm.trans h
    exact ⟨hreg, fun a ha => by rw [hbyte, if_neg ha]⟩

/-- Settles O50: a step that runs no instruction changes the status alone, an instruction that keeps the memory writes
at most the register it names, and any other is a store, which keeps the registers and the bytes outside its window. -/
theorem stepWritesAtMostOneRegisterOrOneMemoryWindow :
    Obligations.StepWritesAtMostOneRegisterOrOneMemoryWindow := by
  intro s t h
  obtain ⟨-, ⟨-, rfl⟩ | ⟨-, -, rfl⟩ | ⟨_, _, -, -, rfl⟩ | ⟨word, i, ha, hd, hx⟩⟩ := step_cases h
  · exact .inl ⟨fun _ => rfl, 0, fun _ _ => rfl⟩
  · exact .inl ⟨fun _ => rfl, 0, fun _ _ => rfl⟩
  · exact .inl ⟨fun _ => rfl, 0, fun _ _ => rfl⟩
  · obtain ⟨-, hmem | ⟨n, rs1, rs2, imm, rfl⟩⟩ := (exec_shape s i).keeps_cfg_mem_or_store hx
    · exact .inl ⟨fun a => by rw [hmem], exec_changes_at_most_one_reg hx⟩
    · obtain ⟨hreg, hbyte⟩ := State.store_frame ((exec_storeOf n rs1 rs2 imm s).symm.trans hx)
      refine .inr ⟨hreg, word, rs1, rs2, imm, n, ha, ?_, hbyte⟩
      cases n with
      | byte => exact .inl ⟨hd, rfl⟩
      | half => exact .inr (.inl ⟨hd, rfl⟩)
      | word => exact .inr (.inr ⟨hd, rfl⟩)

end Sys2Proof.Machine
end

section
/-! SUPPORT. Runs (40_step_cycle.md R100): the induction over the states of a run, the launch every run starts from, and the
run that never ends. -/

namespace Sys2Proof.Machine

variable {s t : State}

/-! ### The induction over a run -/

/-- What holds of the first state and is kept by every step holds of every state of the run (R100). -/
theorem Reaches.induction_on_steps {P : State → Prop} (hstep : ∀ {t u}, P t → step t = .next u → P u) (hs : P s)
    (h : Reaches s t) : P t := by
  induction h with
  | here => exact hs
  | more _ hu ih => exact hstep ih hu

/-! ### The first state has the legal shape -/

/-- The memory at launch lists no address at or above MEM_SIZE (R30). -/
theorem Memory.within_ofFn (n : Nat) (content : Nat → Byte) : (Memory.ofFn n content).within n = true := by
  rw [Memory.within, List.all_eq_true]
  intro cell hc
  obtain ⟨a, ha, hcell⟩ := List.mem_filterMap.mp hc
  split at hcell
  · cases hcell
  · cases hcell
    exact decide_eq_true (List.mem_range.mp ha)

/-- A launch that answers a state has legal parameters, and it answers the reset state with the memory and the
parameters of the launch (R240, R241). -/
theorem State.launch_eq_some {memSize : Nat} {image : List Byte} {memInit : Nat → Byte}
    (h : State.launch memSize image memInit = some s) :
    (Config.mk memSize image.length).wf = true ∧
      s = { State.reset with
              mem := Memory.ofFn memSize (launchByte image memInit)
              cfg := Config.mk memSize image.length } := by
  simp only [State.launch] at h
  split at h
  · next hcfg => exact ⟨hcfg, (Option.some.inj h).symm⟩
  · cases h

theorem State.wf_launch {memSize : Nat} {image : List Byte} {memInit : Nat → Byte}
    (h : State.launch memSize image memInit = some s) : s.wf = true := by
  obtain ⟨hcfg, rfl⟩ := State.launch_eq_some h
  obtain ⟨-, -, -, hslot, hpc⟩ := State.wf_iff.mp resetStateIsWellFormed
  exact State.wf_iff.mpr ⟨hcfg, Memory.wf_ofFn _ _, Memory.within_ofFn _ _, hslot, hpc⟩

/-- Settles O46: the launched state has the legal shape and every step keeps it. -/
theorem everyRunStaysWellFormed : Obligations.EveryRunStaysWellFormed := fun _ _ _ _ _ hlaunch hreach =>
  hreach.induction_on_steps (P := fun u => u.wf = true) (stepKeepsTheStateWellFormed _ _) (State.wf_launch hlaunch)

/-! ### A run that never ends -/

/-- `JAL x0, 0` links to no register and jumps to itself (R200). -/
theorem exec_jal_zero_zero (s : State) : exec (.jal 0 0#32) s = .next s := by
  have hpc : s.pc + 0#32 = s.pc := BitVec.add_zero s.pc
  calc exec (.jal 0 0#32) s
      _ = .next (s.setPc (s.pc + 0#32)) := rfl
      _ = .next s := by rw [hpc]; rfl

/-- A state that a step maps to itself is the only one its run reaches. -/
theorem Reaches.eq_of_step_self (hself : step s = .next s) (h : Reaches s t) : t = s := by
  refine h.induction_on_steps (P := fun u => u = s) ?_ rfl
  rintro _ u rfl hu
  cases hself.symm.trans hu
  rfl

/-- Settles O48: the word is `JAL x0, 0`, which gives the state back, and that state is Running. -/
theorem jumpToItselfRunsForever : Obligations.JumpToItselfRunsForever := by
  intro s ha
  have hd : decode 0x0000006F#32 = .ok (.jal 0 0#32) := by decide
  have hself : step s = .next s := (ha.step_eq_exec hd).trans (exec_jal_zero_zero s)
  refine ⟨hself, fun t ht => ht.eq_of_step_self hself, fun t ht reason hfault => ?_⟩
  rw [ht.eq_of_step_self hself, ha.running] at hfault
  cases hfault

end Sys2Proof.Machine
end

section
/-! SUPPORT. What a pattern of the opcode map with a funct7 says of the fields of its words (30_encoding.md R70),
the effect of an instruction that writes one register (40_step_cycle.md R98), and its result as a number (00_scope.md
R8). -/

namespace Sys2Proof

variable {w : Word} {op f7 : BitVec 7} {f3 : BitVec 3}

/-! ### The words of a pattern -/

/-- A word under the mask with funct7, funct3 and opcode shows these three fields. -/
theorem fields_of_mask_funct7
    (h : w &&& 0xFE00707F#32 = BitVec.ofNat 32 (2 ^ 25 * f7.toNat + 2 ^ 12 * f3.toNat + op.toNat)) :
    opcodeOf w = op ∧ funct3Of w = f3 ∧ funct7Of w = f7 := by
  have hn := congrArg BitVec.toNat h
  have := w.isLt; have := op.isLt; have := f3.isLt; have := f7.isLt
  simp only [toNat_mask_funct7, BitVec.toNat_ofNat] at hn
  simp only [← BitVec.toNat_inj, toNat_opcodeOf, toNat_funct3Of, toNat_funct7Of]
  omega

/-- A word of an R pattern is decoded by the selector of the R class, from the funct3 and funct7 of the pattern. -/
theorem decode_of_mask_r (f3 : BitVec 3) (f7 : BitVec 7)
    (h : w &&& 0xFE00707F#32 = BitVec.ofNat 32 (2 ^ 25 * f7.toNat + 2 ^ 12 * f3.toNat + (0x33#7).toNat)) :
    decode w = selectR (rdOf w) (rs1Of w) (rs2Of w) f3 f7 := by
  obtain ⟨hop, rfl, rfl⟩ := fields_of_mask_funct7 h
  rw [decode, decodeClass_eq_iff.mpr (.r (classOf_eq_R_iff.mpr hop)), select]

end Sys2Proof

namespace Sys2Proof.Machine

variable {s : State} {i : Instr} {rd : Reg} {v v' : Word}

/-! ### The effect of an instruction that writes one register -/

/-- An instruction whose meaning `hx` is `writeAndAdvance` has the effect of its result, in the form `hv` puts it in. -/
theorem exec_registerEffect (hx : exec i s = s.writeAndAdvance rd v) (hv : v = v') :
    ∃ t, exec i s = .next t ∧ RegisterEffect s t rd v' (s.pc + 4#32) := by
  obtain ⟨t, ht, heffect, -, -⟩ := s.writeAndAdvance_effect rd v
  exact ⟨t, hx.trans ht, hv ▸ heffect⟩

/-- The same with the result given bit by bit. -/
theorem exec_registerEffect_bits {bit : Nat → Bool} (hx : exec i s = s.writeAndAdvance rd v)
    (hv : ∀ k, v.getLsbD k = bit k) :
    ∃ t v, exec i s = .next t ∧ RegisterEffect s t rd v (s.pc + 4#32) ∧ ∀ k, v.getLsbD k = bit k := by
  obtain ⟨t, ht, heffect⟩ := exec_registerEffect hx rfl
  exact ⟨t, v, ht, heffect, hv⟩

/-! ### Results as numbers -/

variable (a b : Word) (n : Nat)

theorem add_eq_ofNat : a + b = BitVec.ofNat 32 (a.toNat + b.toNat) := by
  rw [BitVec.ofNat_add, BitVec.ofNat_toNat, BitVec.ofNat_toNat, BitVec.setWidth_eq, BitVec.setWidth_eq]

theorem sub_eq_ofInt : a - b = BitVec.ofInt 32 (a.toInt - b.toInt) := by
  apply BitVec.eq_of_toInt_eq
  rw [BitVec.toInt_sub, BitVec.toInt_ofInt]

/-- `x[rs2] & 0x1F` is the amount modulo 32 (R114). -/
theorem registerShift_eq_mod : registerShift a = a.toNat % 32 := by
  rw [registerShift, BitVec.toNat_and]
  exact Nat.and_two_pow_sub_one_eq_mod a.toNat 5

theorem shiftLeft_eq_ofNat : shiftLeft a n = BitVec.ofNat 32 (a.toNat * 2 ^ n) := by
  apply BitVec.eq_of_toNat_eq
  rw [shiftLeft, BitVec.toNat_shiftLeft, Nat.shiftLeft_eq, BitVec.toNat_ofNat]

theorem shiftRightLogical_eq_ofNat : shiftRightLogical a n = BitVec.ofNat 32 (a.toNat / 2 ^ n) := by
  have hlt : a.toNat / 2 ^ n < 2 ^ 32 := (Nat.div_le_self _ _).trans_lt a.isLt
  apply BitVec.eq_of_toNat_eq
  rw [shiftRightLogical, BitVec.toNat_ushiftRight, Nat.shiftRight_eq_div_pow, BitVec.toNat_ofNat, Nat.mod_eq_of_lt hlt]

/-- The arithmetic shift is the floor of the signed quotient: `Int` division by a power of two rounds down (R119). -/
theorem shiftRightArithmetic_eq_ofInt : shiftRightArithmetic a n = BitVec.ofInt 32 (a.toInt / 2 ^ n) := by
  rw [shiftRightArithmetic, BitVec.sshiftRight, Int.shiftRight_eq_div_pow, Int.natCast_pow, Nat.cast_ofNat]

theorem oneOrZero_lessSigned : oneOrZero (lessSigned a b) = if a.toInt < b.toInt then 1#32 else 0#32 := by
  simp [oneOrZero, lessSigned, BitVec.slt]

theorem oneOrZero_lessUnsigned : oneOrZero (lessUnsigned a b) = if a.toNat < b.toNat then 1#32 else 0#32 := by
  simp [oneOrZero, lessUnsigned, BitVec.ult]

end Sys2Proof.Machine
end

section
/-! SUPPORT. The ALU instructions with two registers (41_alu_register.md). -/

namespace Sys2Proof.Machine

/-- Settles O17: the words go to the R class selector, and the sum and the difference are those of the operands as
numbers, wrapped. -/
theorem addAndSubEncodingAndResult : Obligations.AddAndSubEncodingAndResult :=
  ⟨fun _ => decode_of_mask_r 0b000#3 0x00#7, fun _ => decode_of_mask_r 0b000#3 0x20#7, fun _ rs1 rs2 s =>
    ⟨exec_registerEffect rfl (add_eq_ofNat (s.reg rs1) (s.reg rs2)),
      exec_registerEffect rfl (sub_eq_ofInt (s.reg rs1) (s.reg rs2))⟩⟩

/-- Settles O18: the words go to the R class selector, and the bitwise operations act on each bit alone. -/
theorem xorOrAndEncodingAndResult : Obligations.XorOrAndEncodingAndResult :=
  ⟨fun _ => decode_of_mask_r 0b100#3 0x00#7, fun _ => decode_of_mask_r 0b110#3 0x00#7,
    fun _ => decode_of_mask_r 0b111#3 0x00#7, fun _ _ _ _ =>
    ⟨exec_registerEffect_bits rfl fun _ => BitVec.getLsbD_xor,
      exec_registerEffect_bits rfl fun _ => BitVec.getLsbD_or,
      exec_registerEffect_bits rfl fun _ => BitVec.getLsbD_and⟩⟩

/-- Settles O19: the words go to the R class selector, and each shift by an amount modulo 32 is a product or a quotient
of the operand as a number. -/
theorem registerShiftsEncodingAndResult : Obligations.RegisterShiftsEncodingAndResult := by
  refine ⟨fun _ => decode_of_mask_r 0b001#3 0x00#7, fun _ => decode_of_mask_r 0b101#3 0x00#7,
    fun _ => decode_of_mask_r 0b101#3 0x20#7, fun _ rs1 rs2 s => ?_⟩
  rw [← registerShift_eq_mod]
  exact ⟨exec_registerEffect rfl (shiftLeft_eq_ofNat (s.reg rs1) _),
    exec_registerEffect rfl (shiftRightLogical_eq_ofNat (s.reg rs1) _),
    exec_registerEffect rfl (shiftRightArithmetic_eq_ofInt (s.reg rs1) _)⟩

/-- Settles O20: the words go to the R class selector, and the comparison writes 1 or 0 by the order of the operands as
numbers. -/
theorem registerComparisonsEncodingAndResult : Obligations.RegisterComparisonsEncodingAndResult :=
  ⟨fun _ => decode_of_mask_r 0b010#3 0x00#7, fun _ => decode_of_mask_r 0b011#3 0x00#7, fun _ rs1 rs2 s =>
    ⟨exec_registerEffect rfl (oneOrZero_lessSigned (s.reg rs1) (s.reg rs2)),
      exec_registerEffect rfl (oneOrZero_lessUnsigned (s.reg rs1) (s.reg rs2))⟩⟩

end Sys2Proof.Machine
end

section
/-! SUPPORT. What a pattern of the opcode map says of the fields of its words for the I class (30_encoding.md R70): the
patterns without a funct7, and those of the shifts, whose upper bits stand in the immediate (R131). -/

namespace Sys2Proof

variable {w : Word} {i : Instr} {op f7 : BitVec 7} {f3 : BitVec 3}

/-- A word under the mask with funct3 and opcode shows these two fields. -/
theorem fields_of_mask_funct3
    (h : w &&& 0x0000707F#32 = BitVec.ofNat 32 (2 ^ 12 * f3.toNat + op.toNat)) :
    opcodeOf w = op ∧ funct3Of w = f3 := by
  have hn := congrArg BitVec.toNat h
  have := op.isLt; have := f3.isLt
  simp only [toNat_mask_funct3, BitVec.toNat_ofNat] at hn
  simp only [← BitVec.toNat_inj, toNat_opcodeOf, toNat_funct3Of]
  omega

/-- A word of an I pattern has the fields of the pattern and the I immediate. -/
theorem decodeClass_of_mask_i (f3 : BitVec 3) (hc : classOf op = .I)
    (h : w &&& 0x0000707F#32 = BitVec.ofNat 32 (2 ^ 12 * f3.toNat + op.toNat)) :
    decodeClass w = .i op (rdOf w) (rs1Of w) f3 (immIOf w) := by
  obtain ⟨rfl, rfl⟩ := fields_of_mask_funct3 h
  exact decodeClass_eq_iff.mpr (.i hc)

/-- Where bit 31 of the word is clear, the I immediate is funct7 above the shift amount (R131, R138). -/
theorem immIOf_eq_shift (hup : (funct7Of w).msb = false) : immIOf w = zext (funct7Of w ++ w.extractLsb' 20 5) := by
  rw [zext_shift hup, funct7Of, BitVec.extractLsb'_append_extractLsb'_eq_extractLsb' (by decide)]
  rfl

/-- A word of a shift pattern has the fields of the pattern, with its upper bits above the amount as immediate. -/
theorem decodeClass_of_mask_shift (f3 : BitVec 3) (hup : f7.msb = false)
    (h : w &&& 0xFE00707F#32 = BitVec.ofNat 32 (2 ^ 25 * f7.toNat + 2 ^ 12 * f3.toNat + (0x13#7).toNat)) :
    decodeClass w = .i 0x13#7 (rdOf w) (rs1Of w) f3 (zext (f7 ++ w.extractLsb' 20 5)) := by
  obtain ⟨hop, rfl, rfl⟩ := fields_of_mask_funct7 h
  rw [← immIOf_eq_shift hup, ← hop]
  exact decodeClass_eq_iff.mpr (.i (classOf_eq_I_iff.mpr (.inr (.inl hop))))

/-- A word with the fields of an instruction is decoded to it. -/
theorem decode_of_fieldsOf (h : decodeClass w = fieldsOf i) : decode w = .ok i := by
  rw [decode, h, select_fieldsOf]

/-- The immediate of an SRAI word is 0x400 more than its amount (R138). -/
theorem zext_srai (shamt : BitVec 5) : zext (0x20#7 ++ shamt) = 0x00000400#32 + shamt.setWidth 32 := by
  have := shamt.isLt
  apply BitVec.eq_of_toNat_eq
  simp only [zext, BitVec.toNat_add, BitVec.toNat_setWidth, toNat_append_add, BitVec.toNat_ofNat]
  omega

end Sys2Proof
end

section
/-! SUPPORT. The ALU instructions with an immediate (42_alu_immediate.md). -/

namespace Sys2Proof.Machine

/-- Settles O21: the words have the fields of the instruction, and the operations are those of ADD, XOR, OR and AND with
the immediate as second operand. -/
theorem immediateArithmeticEncodingAndResult : Obligations.ImmediateArithmeticEncodingAndResult :=
  ⟨fun _ h => decode_of_fieldsOf (decodeClass_of_mask_i 0b000#3 rfl h),
    fun _ h => decode_of_fieldsOf (decodeClass_of_mask_i 0b100#3 rfl h),
    fun _ h => decode_of_fieldsOf (decodeClass_of_mask_i 0b110#3 rfl h),
    fun _ h => decode_of_fieldsOf (decodeClass_of_mask_i 0b111#3 rfl h), fun _ rs1 imm s =>
    ⟨exec_registerEffect rfl (add_eq_ofNat (s.reg rs1) imm),
      exec_registerEffect_bits rfl fun _ => BitVec.getLsbD_xor,
      exec_registerEffect_bits rfl fun _ => BitVec.getLsbD_or,
      exec_registerEffect_bits rfl fun _ => BitVec.getLsbD_and⟩⟩

/-- Settles O22: the words have the fields of the instruction, and the comparison with the immediate writes 1 or 0 by
the order of the two as numbers. -/
theorem immediateComparisonsEncodingAndResult : Obligations.ImmediateComparisonsEncodingAndResult :=
  ⟨fun _ h => decode_of_fieldsOf (decodeClass_of_mask_i 0b010#3 rfl h),
    fun _ h => decode_of_fieldsOf (decodeClass_of_mask_i 0b011#3 rfl h), fun _ rs1 imm s =>
    ⟨exec_registerEffect rfl (oneOrZero_lessSigned (s.reg rs1) imm),
      exec_registerEffect rfl (oneOrZero_lessUnsigned (s.reg rs1) imm)⟩⟩

/-- Settles O23: the words have the fields of the instruction, other upper bits are rejected by the selector, and each
shift is a product or a quotient of the operand as a number. -/
theorem immediateShiftsEncodingAndResult : Obligations.ImmediateShiftsEncodingAndResult := by
  refine ⟨fun _ h => decode_of_fieldsOf (decodeClass_of_mask_shift 0b001#3 rfl h),
    fun _ h => decode_of_fieldsOf (decodeClass_of_mask_shift 0b101#3 rfl h), fun w h => ⟨?_, ?_⟩,
    fun w h hlogical harithmetic => ?_, fun _ rs1 shamt s =>
    ⟨exec_registerEffect rfl (shiftLeft_eq_ofNat (s.reg rs1) shamt.toNat),
      exec_registerEffect rfl (shiftRightLogical_eq_ofNat (s.reg rs1) shamt.toNat),
      exec_registerEffect rfl (shiftRightArithmetic_eq_ofInt (s.reg rs1) shamt.toNat)⟩⟩
  · exact decode_of_fieldsOf (decodeClass_of_mask_shift 0b101#3 rfl h)
  · obtain ⟨-, -, hf7⟩ := fields_of_mask_funct7 (op := 0x13#7) (f3 := 0b101#3) (f7 := 0x20#7) h
    rw [immIOf_eq_shift (hf7 ▸ rfl), hf7, zext_srai]
  · rw [decode, decodeClass_of_mask_i 0b101#3 (op := 0x13#7) rfl h, select_imm, selectImm_rejects_iff,
      toNat_immIOf_upper]
    exact .inr ⟨rfl, hlogical, harithmetic⟩

end Sys2Proof.Machine
end

section
/-! SUPPORT. The loads (43_load.md): the two outcomes of a load, and the value of its bytes after the extension
(20_memory.md R34). -/

namespace Sys2Proof.Machine

variable {s : State} {i : Instr} {rd rs1 : Reg} {imm v value : Word} {w : Width} {extend : Word → Word} {k n : Nat}

/-! ### In range and out of range -/

/-- An instruction whose meaning `hx` is a `load` in range has the effect of the extended bytes, in the form `hv` puts
them in. -/
theorem exec_load_inRange (hx : exec i s = s.load w extend rd rs1 imm)
    (hle : (s.effectiveAddress rs1 imm).toNat + w.bytes ≤ s.cfg.memSize)
    (hv : extend (wordOf (s.mem.bytesAt (s.effectiveAddress rs1 imm).toNat w.bytes)) = value) :
    ∃ t, exec i s = .next t ∧ RegisterEffect s t rd value (s.pc + 4#32) := by
  obtain ⟨hlt, -⟩ | ⟨-, hl⟩ := s.load_cases w extend rd rs1 imm
  · exact absurd hlt hle.not_gt
  · exact exec_registerEffect (hx.trans hl) hv

/-- An instruction whose meaning `hx` is a `load` out of range faults. -/
theorem exec_load_outOfRange (hx : exec i s = s.load w extend rd rs1 imm)
    (hlt : s.cfg.memSize < (s.effectiveAddress rs1 imm).toNat + w.bytes) :
    exec i s = .next { s with status := .faulted (.memFault .load (s.effectiveAddress rs1 imm) w) } := by
  obtain ⟨-, hf⟩ | ⟨hle, -⟩ := s.load_cases w extend rd rs1 imm
  · exact hx.trans hf
  · exact absurd hlt hle.not_gt

/-! ### Extended values as numbers -/

/-- The sign extension of a value of `n` bits adds ones above it where its top bit is set (R8). -/
theorem sext_setWidth_eq_ofNat (hv : v.toNat = k) (hk : k < 2 ^ n) (hle : n ≤ 32) :
    sext (v.setWidth n) = BitVec.ofNat 32 (if k < 2 ^ (n - 1) then k else k + (2 ^ 32 - 2 ^ n)) := by
  have hf : (v.setWidth n).toNat = k := by rw [BitVec.toNat_setWidth, hv, Nat.mod_eq_of_lt hk]
  have hpow : 2 ^ n ≤ 2 ^ 32 := Nat.pow_le_pow_right (by decide) hle
  apply BitVec.eq_of_toNat_eq
  rw [sext, BitVec.toNat_signExtend, BitVec.toNat_setWidth, hf, BitVec.msb_eq_decide, hf, BitVec.toNat_ofNat]
  simp only [decide_eq_true_eq]
  split_ifs <;> omega

/-- The zero extension of a value of `n` bits is the value (R8). -/
theorem zext_setWidth_eq_ofNat (hv : v.toNat = k) (hk : k < 2 ^ n) : zext (v.setWidth n) = BitVec.ofNat 32 k := by
  apply BitVec.eq_of_toNat_eq
  rw [zext, BitVec.toNat_setWidth, BitVec.toNat_setWidth, hv, Nat.mod_eq_of_lt hk, BitVec.toNat_ofNat]

variable (b0 b1 b2 b3 : Byte)

theorem signedByte_wordOf : signedByte (wordOf [b0]) =
    BitVec.ofNat 32 (if b0.toNat < 0x80 then b0.toNat else b0.toNat + 0xFFFFFF00) :=
  sext_setWidth_eq_ofNat (toNat_wordOf_one b0) b0.isLt (by decide)

theorem unsignedByte_wordOf : unsignedByte (wordOf [b0]) = BitVec.ofNat 32 b0.toNat :=
  zext_setWidth_eq_ofNat (toNat_wordOf_one b0) b0.isLt

/-- Two bytes, least significant first, make a value of 16 bits (R34). -/
theorem toNat_wordOf_half : (wordOf [b0, b1]).toNat = b0.toNat + 2 ^ 8 * b1.toNat ∧
    b0.toNat + 2 ^ 8 * b1.toNat < 2 ^ 16 := by
  have := b0.isLt; have := b1.isLt
  exact ⟨(toNat_wordOf_two b0 b1).trans (Nat.add_comm _ _), by omega⟩

theorem signedHalf_wordOf : signedHalf (wordOf [b0, b1]) =
    BitVec.ofNat 32 (if b0.toNat + 2 ^ 8 * b1.toNat < 0x8000 then b0.toNat + 2 ^ 8 * b1.toNat
      else b0.toNat + 2 ^ 8 * b1.toNat + 0xFFFF0000) :=
  have ⟨hv, hk⟩ := toNat_wordOf_half b0 b1
  sext_setWidth_eq_ofNat hv hk (by decide)

theorem unsignedHalf_wordOf : unsignedHalf (wordOf [b0, b1]) = BitVec.ofNat 32 (b0.toNat + 2 ^ 8 * b1.toNat) :=
  have ⟨hv, hk⟩ := toNat_wordOf_half b0 b1
  zext_setWidth_eq_ofNat hv hk

theorem wholeWord_wordOf : wholeWord (wordOf [b0, b1, b2, b3]) =
    BitVec.ofNat 32 (b0.toNat + 2 ^ 8 * b1.toNat + 2 ^ 16 * b2.toNat + 2 ^ 24 * b3.toNat) := by
  have := b0.isLt; have := b1.isLt; have := b2.isLt; have := b3.isLt
  apply BitVec.eq_of_toNat_eq
  rw [wholeWord, toNat_wordOf_four, BitVec.toNat_ofNat]
  omega

/-! ### The obligations about the loads -/

/-- Settles O31: the words have the fields of the instruction, and each load in range writes the extended value of its
bytes. -/
theorem loadsEncodingAndResult : Obligations.LoadsEncodingAndResult :=
  ⟨fun _ => ⟨fun h => decode_of_fieldsOf (decodeClass_of_mask_i 0b000#3 rfl h),
    fun h => decode_of_fieldsOf (decodeClass_of_mask_i 0b001#3 rfl h),
    fun h => decode_of_fieldsOf (decodeClass_of_mask_i 0b010#3 rfl h),
    fun h => decode_of_fieldsOf (decodeClass_of_mask_i 0b100#3 rfl h),
    fun h => decode_of_fieldsOf (decodeClass_of_mask_i 0b101#3 rfl h)⟩, fun _ _ _ _ =>
    ⟨fun hle => exec_load_inRange rfl hle (signedByte_wordOf _),
      fun hle => exec_load_inRange rfl hle (signedHalf_wordOf _ _),
      fun hle => exec_load_inRange rfl hle (wholeWord_wordOf _ _ _ _),
      fun hle => exec_load_inRange rfl hle (unsignedByte_wordOf _),
      fun hle => exec_load_inRange rfl hle (unsignedHalf_wordOf _ _)⟩⟩

/-- Settles O32: each instruction is a `load` of its width, and out of range the bounds test fails before any register
is written. -/
theorem loadsOutOfRangeFault : Obligations.LoadsOutOfRangeFault := fun _ _ _ _ =>
  ⟨fun hlt => exec_load_outOfRange rfl hlt,
    fun hlt => exec_load_outOfRange rfl hlt,
    fun hlt => exec_load_outOfRange rfl hlt,
    fun hlt => exec_load_outOfRange rfl hlt,
    fun hlt => exec_load_outOfRange rfl hlt⟩

end Sys2Proof.Machine
end

section
/-! SUPPORT. The effect of a jump, and JALR (44_jalr.md). -/

namespace Sys2Proof.Machine

variable {s : State} {i : Instr} {rd : Reg} {target target' : Word}

/-- An instruction whose meaning `hx` is `linkAndJump` links to pc + 4 and goes to its target, in the form `htarget` puts
it in. -/
theorem exec_jump_registerEffect (hx : exec i s = s.linkAndJump rd target) (htarget : target = target') :
    ∃ t, exec i s = .next t ∧ RegisterEffect s t rd (s.pc + 4#32) target' := by
  obtain ⟨t, ht, heffect, -, -⟩ := s.linkAndJump_effect rd target
  exact ⟨t, hx.trans ht, htarget ▸ heffect⟩

/-- Clearing bit 0 rounds down to an even number: the half of the word is kept, and the last bit is 0. -/
theorem toNat_clearBit0 (v : Word) : (v &&& 0xFFFFFFFE#32).toNat = v.toNat / 2 * 2 := by
  have hlt : v.toNat / 2 < 2 ^ 31 := Nat.div_lt_of_lt_mul v.isLt
  have hhalf : (v &&& 0xFFFFFFFE#32).toNat / 2 = v.toNat / 2 := by
    rw [BitVec.toNat_and, Nat.and_div_two]
    exact (Nat.and_two_pow_sub_one_eq_mod _ 31).trans (Nat.mod_eq_of_lt hlt)
  have hlast : (v &&& 0xFFFFFFFE#32).toNat % 2 = 0 :=
    Nat.mod_two_eq_zero_iff_testBit_zero.mpr (clearBit0_even v)
  omega

/-- The target of a JALR as a number (R165). -/
theorem clearBit0_add_eq_ofNat (a b : Word) :
    (a + b) &&& 0xFFFFFFFE#32 = BitVec.ofNat 32 ((a.toNat + b.toNat) % 2 ^ 32 / 2 * 2) := by
  rw [← BitVec.toNat_add, ← toNat_clearBit0, BitVec.ofNat_toNat, BitVec.setWidth_eq]

/-- Settles O25: the words have the fields of the instruction, and the jump goes to the wrapped sum rounded down to an
even number. -/
theorem jalrEncodingAndResult : Obligations.JalrEncodingAndResult :=
  ⟨fun _ h => decode_of_fieldsOf (decodeClass_of_mask_i 0b000#3 rfl h), fun _ rs1 imm s =>
    exec_jump_registerEffect rfl (clearBit0_add_eq_ofNat (s.reg rs1) imm)⟩

end Sys2Proof.Machine
end

section
/-! SUPPORT. What a pattern of the opcode map says of the fields of its words for the S class (30_encoding.md R70), and
the stores (45_store.md): the two outcomes of a store. -/

namespace Sys2Proof

/-- A word of an S pattern has the fields of the pattern and the S immediate. -/
theorem decodeClass_of_mask_s {w : Word} (f3 : BitVec 3)
    (h : w &&& 0x0000707F#32 = BitVec.ofNat 32 (2 ^ 12 * f3.toNat + (0x23#7).toNat)) :
    decodeClass w = .s 0x23#7 (rs1Of w) (rs2Of w) f3 (immSOf w) := by
  obtain ⟨hop, rfl⟩ := fields_of_mask_funct3 h
  rw [← hop]
  exact decodeClass_eq_iff.mpr (.s (classOf_eq_S_iff.mpr hop))

end Sys2Proof

namespace Sys2Proof.Machine

variable {s : State} {rs1 rs2 : Reg} {imm : Word}

/-- The store instruction of width `w` in range completes with the low bytes of x[rs2] at its effective address. -/
theorem exec_storeOf_inRange (w : Width)
    (hle : (s.effectiveAddress rs1 imm).toNat + w.bytes ≤ s.cfg.memSize) :
    ∃ t, exec (storeOf w rs1 rs2 imm) s = .next t ∧
      StoreEffect s t (s.effectiveAddress rs1 imm).toNat w.bytes (s.reg rs2) := by
  obtain ⟨hlt, -⟩ | ⟨-, t, ht, heffect, -, -⟩ := s.store_cases w rs1 rs2 imm
  · exact absurd hlt hle.not_gt
  · exact ⟨t, (exec_storeOf w rs1 rs2 imm s).trans ht, heffect⟩

/-- The store instruction of width `w` out of range faults, and the status is all that changes. -/
theorem exec_storeOf_outOfRange (w : Width)
    (hlt : s.cfg.memSize < (s.effectiveAddress rs1 imm).toNat + w.bytes) :
    exec (storeOf w rs1 rs2 imm) s =
      .next { s with status := .faulted (.memFault .store (s.effectiveAddress rs1 imm) w) } := by
  obtain ⟨-, hf⟩ | ⟨hle, -⟩ := s.store_cases w rs1 rs2 imm
  · exact (exec_storeOf w rs1 rs2 imm s).trans hf
  · exact absurd hlt hle.not_gt

/-- Settles O33: the words have the fields of the instruction, the effective address is the sum in 32 bits, and each
store in range writes the low bytes of its width. -/
theorem storesEncodingAndResult : Obligations.StoresEncodingAndResult :=
  ⟨fun _ => ⟨fun h => decode_of_fieldsOf (decodeClass_of_mask_s 0b000#3 h),
    fun h => decode_of_fieldsOf (decodeClass_of_mask_s 0b001#3 h),
    fun h => decode_of_fieldsOf (decodeClass_of_mask_s 0b010#3 h)⟩, fun rs1 _ imm s =>
    ⟨BitVec.toNat_add (s.reg rs1) imm,
      exec_storeOf_inRange .byte, exec_storeOf_inRange .half, exec_storeOf_inRange .word⟩⟩

/-- Settles O34: each instruction is a `store` of its width, and out of range the bounds test fails before any byte is
written. -/
theorem storesOutOfRangeFault : Obligations.StoresOutOfRangeFault := fun _ _ _ _ =>
  ⟨exec_storeOf_outOfRange .byte, exec_storeOf_outOfRange .half, exec_storeOf_outOfRange .word⟩

end Sys2Proof.Machine
end

section
/-! SUPPORT. What a pattern of the opcode map with an opcode alone says of its words (30_encoding.md R70), for the U
class, and LUI and AUIPC (46_upper_immediate.md). -/

namespace Sys2Proof

variable {w : Word} {op : BitVec 7}

/-- A word under the mask with the opcode alone shows the opcode. -/
theorem opcode_of_mask (h : w &&& 0x0000007F#32 = BitVec.ofNat 32 op.toNat) : opcodeOf w = op := by
  have hn := congrArg BitVec.toNat h
  have := op.isLt
  simp only [toNat_mask_opcode, BitVec.toNat_ofNat] at hn
  simp only [← BitVec.toNat_inj, toNat_opcodeOf]
  omega

/-- A word of a U pattern has the opcode of the pattern, and its upper 20 bits in place as immediate (R60). -/
theorem decodeClass_of_mask_u (hc : classOf op = .U) (h : w &&& 0x0000007F#32 = BitVec.ofNat 32 op.toNat) :
    decodeClass w = .u op (rdOf w) (w &&& 0xFFFFF000#32) := by
  obtain rfl := opcode_of_mask h
  rw [← immUOf_eq_and]
  exact decodeClass_eq_iff.mpr (.u hc)

end Sys2Proof

namespace Sys2Proof.Machine

/-- Settles O24: the words have the fields of the instruction, LUI writes its immediate as it is, and AUIPC writes the
wrapped sum of its own address and the immediate. -/
theorem upperImmediateEncodingAndResult : Obligations.UpperImmediateEncodingAndResult :=
  ⟨fun _ h => decode_of_fieldsOf (decodeClass_of_mask_u (op := 0x37#7) rfl h),
    fun _ h => decode_of_fieldsOf (decodeClass_of_mask_u (op := 0x17#7) rfl h), fun _ imm s =>
    ⟨exec_registerEffect rfl rfl, exec_registerEffect rfl (add_eq_ofNat s.pc imm)⟩⟩

end Sys2Proof.Machine
end

section
/-! SUPPORT. What a pattern of the opcode map says of the fields of its words for the B class (30_encoding.md R70), and
the branches (47_branch.md): the three comparisons as conditions on the operands, and the effect of a branch. -/

namespace Sys2Proof

/-- A word of a B pattern has the fields of the pattern and the B immediate. -/
theorem decodeClass_of_mask_b {w : Word} (f3 : BitVec 3)
    (h : w &&& 0x0000707F#32 = BitVec.ofNat 32 (2 ^ 12 * f3.toNat + (0x63#7).toNat)) :
    decodeClass w = .b 0x63#7 (rs1Of w) (rs2Of w) f3 (immBOf w) := by
  obtain ⟨hop, rfl⟩ := fields_of_mask_funct3 h
  rw [← hop]
  exact decodeClass_eq_iff.mpr (.b (classOf_eq_B_iff.mpr hop))

end Sys2Proof

namespace Sys2Proof.Machine

variable {s : State} {i : Instr} {imm : Word} {a b : Word}

/-! ### The comparisons -/

theorem equal_iff : equal a b = true ↔ a = b := beq_iff_eq

theorem not_equal_iff : (!equal a b) = true ↔ a ≠ b := by
  rw [Bool.not_eq_true', ← Bool.not_eq_true, equal_iff]

theorem lessSigned_iff : lessSigned a b = true ↔ a.toInt < b.toInt := BitVec.slt_iff_toInt_lt

theorem not_lessSigned_iff : (!lessSigned a b) = true ↔ b.toInt ≤ a.toInt := by
  rw [Bool.not_eq_true', ← Bool.not_eq_true, lessSigned_iff, Int.not_lt]

theorem lessUnsigned_iff : lessUnsigned a b = true ↔ a.toNat < b.toNat := BitVec.ult_iff_toNat_lt

theorem not_lessUnsigned_iff : (!lessUnsigned a b) = true ↔ b.toNat ≤ a.toNat := by
  rw [Bool.not_eq_true', ← Bool.not_eq_true, lessUnsigned_iff, Nat.not_lt]

/-! ### The effect of a branch -/

/-- An instruction whose meaning `hx` is `branch` moves the pc by its condition, in the form `hc` puts it in, and does
nothing else (R185). -/
theorem exec_branch_pcEffect {taken : Bool} {c : Prop} [Decidable c] (hx : exec i s = s.branch taken imm)
    (hc : taken = true ↔ c) :
    ∃ t, exec i s = .next t ∧ PcEffect s t (if c then s.pc + imm else s.pc + 4#32) := by
  obtain ⟨t, ht, heffect, -, -⟩ := s.branch_effect taken imm
  exact ⟨t, hx.trans ht, by simpa only [hc] using heffect⟩

/-- Settles O27: the words have the fields of the instruction, and the branch is taken by equality of the operands. -/
theorem equalityBranchesEncodingAndResult : Obligations.EqualityBranchesEncodingAndResult :=
  ⟨fun _ h => decode_of_fieldsOf (decodeClass_of_mask_b 0b000#3 h),
    fun _ h => decode_of_fieldsOf (decodeClass_of_mask_b 0b001#3 h), fun _ _ _ _ =>
    ⟨exec_branch_pcEffect rfl equal_iff, exec_branch_pcEffect rfl not_equal_iff⟩⟩

/-- Settles O28: the words have the fields of the instruction, and the branch is taken by the signed order of the
operands. -/
theorem signedBranchesEncodingAndResult : Obligations.SignedBranchesEncodingAndResult :=
  ⟨fun _ h => decode_of_fieldsOf (decodeClass_of_mask_b 0b100#3 h),
    fun _ h => decode_of_fieldsOf (decodeClass_of_mask_b 0b101#3 h), fun _ _ _ _ =>
    ⟨exec_branch_pcEffect rfl lessSigned_iff, exec_branch_pcEffect rfl not_lessSigned_iff⟩⟩

/-- Settles O29: the words have the fields of the instruction, and the branch is taken by the unsigned order of the
operands. -/
theorem unsignedBranchesEncodingAndResult : Obligations.UnsignedBranchesEncodingAndResult :=
  ⟨fun _ h => decode_of_fieldsOf (decodeClass_of_mask_b 0b110#3 h),
    fun _ h => decode_of_fieldsOf (decodeClass_of_mask_b 0b111#3 h), fun _ _ _ _ =>
    ⟨exec_branch_pcEffect rfl lessUnsigned_iff, exec_branch_pcEffect rfl not_lessUnsigned_iff⟩⟩

end Sys2Proof.Machine
end

section
/-! SUPPORT. What the pattern of the J class says of the fields of its words (30_encoding.md R70), and JAL
(48_jal.md). -/

namespace Sys2Proof

/-- A word of the J pattern has the opcode of the pattern and the J immediate. -/
theorem decodeClass_of_mask_j {w : Word} (h : w &&& 0x0000007F#32 = 0x0000006F#32) :
    decodeClass w = .j 0x6F#7 (rdOf w) (immJOf w) := by
  have hop : opcodeOf w = 0x6F#7 := opcode_of_mask h
  rw [← hop]
  exact decodeClass_eq_iff.mpr (.j (classOf_eq_J_iff.mpr hop))

end Sys2Proof

namespace Sys2Proof.Machine

/-- Settles O26: the words have the fields of the instruction, and the jump goes to the wrapped sum of its own address
and the offset. -/
theorem jalEncodingAndResult : Obligations.JalEncodingAndResult :=
  ⟨fun _ h => decode_of_fieldsOf (decodeClass_of_mask_j h), fun _ imm s =>
    exec_jump_registerEffect rfl (add_eq_ofNat s.pc imm)⟩

end Sys2Proof.Machine
end

section
/-! SUPPORT. The ends of a run (60_exceptions.md R220 to R226): ECALL, illegal words, and everything an instruction
and a step can do to the status. -/

namespace Sys2Proof

/-- The illegal words are those that match no row of the opcode map (R72). -/
theorem decode_error_iff_no_row {w : Word} :
    (∃ e, decode w = .error e) ↔ ∀ row ∈ opcodeTable, w &&& row.2.2 ≠ row.2.1 := by
  constructor
  · exact fun herr row hrow hmatch => row_not_illegal row hrow hmatch herr
  · intro hno
    cases hd : decode w with
    | error e => exact ⟨e, rfl⟩
    | ok i =>
      obtain ⟨row, hrow, -, hmatch⟩ := opcodeRow i
      rw [encode_of_decode hd] at hmatch
      exact absurd hmatch (hno row hrow)

end Sys2Proof

namespace Sys2Proof.Machine

variable {s t : State} {i : Instr} {rd rs1 rs2 : Reg} {imm : Word} {w : Width}

/-! ### ECALL and illegal words -/

/-- Settles O30: ECALL is `halt`, which changes the status alone, and the step adds nothing around it. -/
theorem ecallHaltsAndChangesNothingElse : Obligations.EcallHaltsAndChangesNothingElse :=
  have hd : decode 0x00000073#32 = .ok .ecall := decode_eq_ecall_iff.mpr rfl
  ⟨hd, fun _ => ⟨_, rfl, rfl, rfl, rfl, rfl, rfl⟩, fun _ ha => ha.step_eq_exec hd, rfl⟩

/-- Settles O15: a word that matches no row is rejected, and the step raises that and changes the status alone. -/
theorem illegalWordStopsTheRun : Obligations.IllegalWordStopsTheRun := by
  intro s word ha hno
  obtain ⟨e, hd⟩ := decode_error_iff_no_row.mpr hno
  exact step_of_decode_error ha.running ha.not_atEndOfImage (State.fetchWord_of_aboutToExecute ha) hd

/-! ### How an instruction ends a run -/

/-- The load instructions of each width (R152 to R156). -/
def loadsOf : Width → Reg → Reg → Word → List Instr
  | .byte, rd, rs1, imm => [.lb rd rs1 imm, .lbu rd rs1 imm]
  | .half, rd, rs1, imm => [.lh rd rs1 imm, .lhu rd rs1 imm]
  | .word, rd, rs1, imm => [.lw rd rs1 imm]

/-- `ExecStops s i st`: from `s` instruction `i` ends the run with status `st`, and why: it is ECALL, or it is a load
or a store whose bytes do not all exist. -/
inductive ExecStops (s : State) : Instr → Status → Prop where
  | ecall : ExecStops s .ecall (.halted .ecall)
  | load {i : Instr} {w : Width} {rd rs1 : Reg} {imm : Word} (hi : i ∈ loadsOf w rd rs1 imm)
      (hlt : s.cfg.memSize < (s.effectiveAddress rs1 imm).toNat + w.bytes) :
      ExecStops s i (.faulted (.memFault .load (s.effectiveAddress rs1 imm) w))
  | store {w : Width} {rs1 rs2 : Reg} {imm : Word}
      (hlt : s.cfg.memSize < (s.effectiveAddress rs1 imm).toNat + w.bytes) :
      ExecStops s (storeOf w rs1 rs2 imm) (.faulted (.memFault .store (s.effectiveAddress rs1 imm) w))

/-- The instruction completes and keeps the status, or it ends the run and changes the status alone. -/
def ExecKeepsOrStops (s t : State) (i : Instr) : Prop :=
  t.status = s.status ∨ ∃ st, ExecStops s i st ∧ StopsWith s t st

theorem State.writeAndAdvance_keeps_status {v : Word} (h : s.writeAndAdvance rd v = .next t) :
    t.status = s.status := by
  cases h; simp

theorem State.linkAndJump_keeps_status {target : Word} (h : s.linkAndJump rd target = .next t) :
    t.status = s.status := by
  cases h; simp

theorem State.branch_keeps_status {taken : Bool} (h : s.branch taken imm = .next t) : t.status = s.status := by
  cases taken <;> (cases h; rfl)

theorem State.load_keeps_status_or_stops {extend : Word → Word} (hi : i ∈ loadsOf w rd rs1 imm)
    (h : s.load w extend rd rs1 imm = .next t) : ExecKeepsOrStops s t i := by
  obtain ⟨hlt, hf⟩ | ⟨-, hl⟩ := s.load_cases w extend rd rs1 imm
  · cases hf.symm.trans h
    exact .inr ⟨_, .load hi hlt, rfl⟩
  · exact .inl (State.writeAndAdvance_keeps_status (hl.symm.trans h))

theorem State.store_keeps_status_or_stops (h : s.store w rs1 rs2 imm = .next t) :
    ExecKeepsOrStops s t (storeOf w rs1 rs2 imm) := by
  obtain ⟨hlt, hf⟩ | ⟨-, u, hu, ⟨-, -, -, hst, -⟩, -⟩ := s.store_cases w rs1 rs2 imm
  · cases hf.symm.trans h
    exact .inr ⟨_, .store hlt, rfl⟩
  · cases hu.symm.trans h
    exact .inl hst

/-- Everything an instruction can do to the status. -/
theorem exec_keeps_status_or_stops : (i : Instr) → exec i s = .next t → ExecKeepsOrStops s t i
  | .add .., h | .sub .., h | .sll .., h | .slt .., h | .sltu .., h | .xor .., h | .srl .., h | .sra .., h
  | .or .., h | .and .., h | .addi .., h | .slli .., h | .slti .., h | .sltiu .., h | .xori .., h | .srli .., h
  | .srai .., h | .ori .., h | .andi .., h | .lui .., h | .auipc .., h => .inl (State.writeAndAdvance_keeps_status h)
  | .jalr .., h | .jal .., h => .inl (State.linkAndJump_keeps_status h)
  | .beq .., h | .bne .., h | .blt .., h | .bge .., h | .bltu .., h | .bgeu .., h => .inl (State.branch_keeps_status h)
  | .lb .., h | .lh .., h | .lw .., h => State.load_keeps_status_or_stops (.head _) h
  | .lbu .., h | .lhu .., h => State.load_keeps_status_or_stops (.tail _ (.head _)) h
  | .sb .., h => State.store_keeps_status_or_stops (w := .byte) h
  | .sh .., h => State.store_keeps_status_or_stops (w := .half) h
  | .sw .., h => State.store_keeps_status_or_stops (w := .word) h
  | .ecall, h => by cases h; exact .inr ⟨_, .ecall, rfl⟩

/-! ### How a step ends a run -/

/-- Settles O49: a step that runs no instruction changes the status alone, and so does an instruction that does not
complete. -/
theorem stoppingStepChangesOnlyTheStatus : Obligations.StoppingStepChangesOnlyTheStatus := by
  intro s t h hstop
  obtain ⟨hrun, ⟨-, rfl⟩ | ⟨-, -, rfl⟩ | ⟨_, _, -, -, rfl⟩ | ⟨_, i, -, -, hx⟩⟩ := step_cases h
  · rfl
  · rfl
  · rfl
  · obtain hst | ⟨st, -, rfl⟩ := exec_keeps_status_or_stops i hx
    · exact absurd (hst.trans hrun) hstop
    · rfl

/-- Settles O47: the three ends before an instruction runs are the cases of the step, and the instruction that ends a
run is ECALL, which has one word, or a load or a store out of range. -/
theorem runEndsOnlyInTheFourWays : Obligations.RunEndsOnlyInTheFourWays := by
  intro s t h
  obtain ⟨hrun, ⟨himg, rfl⟩ | ⟨-, hsize, rfl⟩ | ⟨word, e, ha, hd, rfl⟩ | ⟨word, i, ha, hd, hx⟩⟩ := step_cases h
  · exact himg
  · exact ⟨hsize, rfl, rfl⟩
  · exact ⟨rfl, ha, decode_error_iff_no_row.mp ⟨e, hd⟩⟩
  obtain hst | ⟨st, hstops, rfl⟩ := exec_keeps_status_or_stops i hx
  · rw [hst, hrun]
    trivial
  cases hstops with
  | ecall => exact decode_eq_ecall_iff.mp hd ▸ ha
  | @load _ n rd rs1 imm hi hlt =>
    refine ⟨hlt, word, rd, rs1, imm, ha, rfl, ?_⟩
    cases n <;> simpa [loadsOf, hd] using hi
  | @store n rs1 rs2 imm hlt =>
    refine ⟨hlt, word, rs1, rs2, imm, ha, rfl, ?_⟩
    cases n with
    | byte => exact .inl ⟨rfl, hd⟩
    | half => exact .inr (.inl ⟨rfl, hd⟩)
    | word => exact .inr (.inr ⟨rfl, hd⟩)

end Sys2Proof.Machine
end

section
/-! SUPPORT. The launch (70_reset_and_hazards.md R240 to R244): when there is a first state, and the bytes it holds. -/

namespace Sys2Proof

theorem Config.wf_iff {c : Config} :
    c.wf = true ↔ 1 ≤ c.memSize ∧ c.memSize ≤ 2 ^ 32 ∧ c.imageLen ≤ c.memSize := by
  simp [Config.wf, and_assoc]

end Sys2Proof

namespace Sys2Proof.Machine

variable {memSize : Nat} {image : List Byte} {memInit : Nat → Byte}

/-- Settles O45: a launch that answers a state has legal parameters. -/
theorem launchRefusesWhatDoesNotFit : Obligations.LaunchRefusesWhatDoesNotFit := by
  refine fun memSize image memInit hbad => Option.eq_none_iff_forall_ne_some.mpr fun s hlaunch => ?_
  obtain ⟨hmin, hmax, hfit⟩ := Config.wf_iff.mp (State.launch_eq_some hlaunch).1
  dsimp only at hmin hmax hfit
  omega

/-- Listing a memory address by address, leaving out what reads as unlisted, keeps every byte of those addresses. -/
theorem Memory.byteAt_filterMap (content : Nat → Byte) (addrs : List Nat) (a : Nat) :
    Memory.byteAt (addrs.filterMap fun x => if content x = Memory.unlisted then none else some (x, content x)) a =
      if a ∈ addrs then content a else Memory.unlisted := by
  induction addrs with
  | nil => rfl
  | cons x rest ih =>
    by_cases hx : content x = Memory.unlisted
    · rw [List.filterMap_cons_none (by simp [hx]), ih]
      by_cases ha : a = x
      · simp [ha, hx]
      · simp [ha]
    · rw [List.filterMap_cons_some (by rw [if_neg hx]), Memory.byteAt, ih]
      by_cases ha : x = a
      · simp [ha]
      · simp [ha, Ne.symm ha]

theorem Memory.byteAt_ofFn (n : Nat) (content : Nat → Byte) (a : Nat) :
    (Memory.ofFn n content).byteAt a = if a < n then content a else Memory.unlisted := by
  simp only [Memory.ofFn, Memory.byteAt_filterMap, List.mem_range]

theorem launchByte_image {a : Nat} (h : a < image.length) : launchByte image memInit a = image[a] := by
  rw [launchByte, List.getElem?_eq_getElem h, Option.getD_some]

theorem launchByte_memInit {a : Nat} (h : image.length ≤ a) : launchByte image memInit a = memInit a := by
  rw [launchByte, List.getElem?_eq_none h, Option.getD_none]

/-- With legal parameters (R6) the launch answers the reset state with the memory and the parameters of the launch. -/
theorem State.launch_of_fits (hmin : 1 ≤ memSize) (hmax : memSize ≤ 2 ^ 32) (hfit : image.length ≤ memSize) :
    State.launch memSize image memInit =
      some { State.reset with
              mem := Memory.ofFn memSize (launchByte image memInit)
              cfg := Config.mk memSize image.length } :=
  if_pos (Config.wf_iff.mpr ⟨hmin, hmax, hfit⟩)

/-- Settles O44: the launch answers the reset state with another memory and its own parameters, and a byte of that
memory is the image's or MEM_INIT's. -/
theorem launchPlacesTheImage : Obligations.LaunchPlacesTheImage := by
  intro memSize image memInit hmin hmax hfit
  have hlaunch := State.launch_of_fits (memInit := memInit) hmin hmax hfit
  refine ⟨_, hlaunch, State.wf_launch hlaunch, State.reset_reg, rfl, rfl, rfl, rfl, fun a ha => ?_,
    fun a hge hlt => ?_⟩
  · rw [Memory.byteAt_ofFn, if_pos (ha.trans_le hfit), launchByte_image ha]
  · rw [Memory.byteAt_ofFn, if_pos hlt, launchByte_memInit hge]

end Sys2Proof.Machine
end

section
/-! SUPPORT. Around the core: the register dump (60_exceptions.md R232), and the word the model's own loader places. -/

namespace Sys2Proof

/-- Element `k` of part `j` of a concatenation of parts of one length. -/
theorem getElem?_flatMap_of_length {α β : Type} {f : α → List β} {n : Nat} (hf : ∀ x, (f x).length = n)
    {xs : List α} {j k : Nat} (hj : j < xs.length) (hk : k < n) : (xs.flatMap f)[n * j + k]? = (f xs[j])[k]? := by
  induction xs generalizing j with
  | nil => cases hj
  | cons x xs ih =>
    rw [List.flatMap_cons]
    cases j with
    | zero => rw [Nat.mul_zero, Nat.zero_add, List.getElem?_append_left (by rwa [hf])]; rfl
    | succ j =>
      have hidx : n * (j + 1) + k = (f x).length + (n * j + k) := by rw [hf, Nat.mul_succ]; omega
      rw [hidx, List.getElem?_append_right (Nat.le_add_right _ _), Nat.add_sub_cancel_left,
        ih (Nat.lt_of_succ_lt_succ hj)]
      rfl

theorem decode_of_decodeTableWord {nbits w : Nat} {i : Instr} (h : decodeTableWord nbits w = some i) :
    decode (BitVec.ofNat 32 (w % 2 ^ nbits)) = .ok i := by
  have hb := decodeBytes_bytesOf (BitVec.ofNat 32 (w % 2 ^ nbits)) []
  rw [List.append_nil] at hb
  rw [decodeTableWord, hb] at h
  cases hd : decode (BitVec.ofNat 32 (w % 2 ^ nbits)) with
  | ok j => rw [hd] at h; cases h; rfl
  | error e => rw [hd] at h; cases h

/-- Settles O11: the Decoder and the selection, evaluated on each word. -/
theorem writtenOutWordsDecode : Obligations.WrittenOutWordsDecode := by
  unfold Obligations.WrittenOutWordsDecode
  decide

end Sys2Proof

namespace Sys2Proof.Machine

/-- Settles O54: the dump is a concatenation of parts of four bytes, one of each register, and the exit codes are the
cases of their definition. -/
theorem registerDumpAndExitCode : Obligations.RegisterDumpAndExitCode := by
  refine ⟨fun s => ⟨?_, fun r k hk => ?_⟩, fun _ => rfl, fun _ => rfl, rfl⟩
  · simp [State.registerDump, List.length_flatMap]
  · have hr : r.val < (List.finRange 32).length := by rw [List.length_finRange]; exact r.isLt
    rw [State.registerDump, getElem?_flatMap_of_length (fun _ => length_bytesOf _ 4) hr hk, List.getElem_finRange]
    exact getElem?_bytesOf hk

/-- A placed word is the one the next step executes: the image and the memory are raised to cover it (log entry 6). -/
theorem State.aboutToExecute_placeWordAtPc (s : State) (w : Word) : AboutToExecute (s.placeWordAtPc w) w := by
  have himg : s.pc.toNat < max s.cfg.imageLen (s.pc.toNat + 4) := by omega
  refine ⟨rfl, himg, Nat.le_max_right _ _, fun k hk => ?_⟩
  have hbyte := s.mem.byteAt_setBytes_bytesOf s.pc.toNat 4 (s.pc.toNat + k) w
  rwa [if_pos (by omega), Nat.add_sub_cancel_left] at hbyte

/-- Settles O55: the word the loader places is the one the step executes, and the loader touches neither the registers
nor the pc. -/
theorem placedWordIsExecutedNext : Obligations.PlacedWordIsExecutedNext := fun s _ _ h =>
  ⟨(s.aboutToExecute_placeWordAtPc _).step_eq_exec (decode_of_decodeTableWord h), rfl, rfl⟩

end Sys2Proof.Machine
end
